-- ==== Sys2Proof/Word.lean ====
section
/-! DEFINITION. The sizes of SAYAC's data: the 16-bit word of every register, memory word, IO word and address
(00_scope.md R6, R9), the byte in which the model lists memory, and the 4-bit register index. -/

namespace Sys2Proof

/-- A register value, memory word, IO word or address (R6, R9). -/
abbrev Word := BitVec 16

/-- Half a word: the unit in which the model lists memory (log 5). -/
abbrev Byte := BitVec 8

/-- A register index, 0 to 15 (R6, R21). -/
abbrev RegIdx := BitVec 4

end Sys2Proof
end

