-- ==== Sys2Proof/Syntax.lean ====
section
/-! DEFINITION. The instructions of SAYAC: one constructor for each row of spec/opcode_table.json (30_encoding.md R80,
R90), operands in the order of the assembler (R88). A shadow form has a constructor of its own: which of the two a word
is depends on R15 (R82) and is decided by `decode`. Bits that no field covers are no operands (R85). -/

namespace Sys2Proof

inductive Instr where
  /-- Load Registered (R100). -/
  | ldr (rd rs1 : RegIdx)
  /-- Load from an IO device (R101). -/
  | ldrIo (rd rs1 : RegIdx)
  /-- Store Registered: `rd` holds the address, `rs1` the data (R102). -/
  | str (rd rs1 : RegIdx)
  /-- Store to an IO device (R103). -/
  | strIo (rd rs1 : RegIdx)
  /-- Jump Registered; `s` is the Save PC bit (R110). -/
  | jmr (s : Bool) (rd rs1 : RegIdx)
  /-- Jump Immediate (R111). -/
  | jmi (rd : RegIdx) (imm6 : BitVec 6)
  /-- AND Registered (R130). -/
  | anr (rd rs1 rs2 : RegIdx)
  /-- AND Immediate (R131). -/
  | ani (rd : RegIdx) (imm8 : BitVec 8)
  /-- Move Signed Immediate (R133). -/
  | msi (rd : RegIdx) (imm8 : BitVec 8)
  /-- Move High Immediate (R137). -/
  | mhi (rd : RegIdx) (imm8 : BitVec 8)
  /-- Shift Logical Registered (R138). -/
  | slr (rd rs1 rs2 : RegIdx)
  /-- Shift Arithmetic Registered (R139). -/
  | sar (rd rs1 rs2 : RegIdx)
  /-- Add Registered (R140). -/
  | adr (rd rs1 rs2 : RegIdx)
  /-- Subtract Registered (R141). -/
  | sur (rd rs1 rs2 : RegIdx)
  /-- Add Immediate (R142). -/
  | adi (rd : RegIdx) (imm8 : BitVec 8)
  /-- Subtract Immediate (R144). -/
  | sui (rd : RegIdx) (imm8 : BitVec 8)
  /-- Multiply Registered, unsigned (R160). -/
  | mul (rd rs1 rs2 : RegIdx)
  /-- Divide Registered, unsigned (R164). -/
  | div (rd rs1 rs2 : RegIdx)
  /-- Compare Registered, unsigned (R114). -/
  | cmr (rs1 rd : RegIdx)
  /-- Compare Immediate, unsigned (R116). -/
  | cmi (imm5 : BitVec 5) (rd : RegIdx)
  /-- Branch Conditional, absolute; `fib` is FIB[4:0] (R120). -/
  | brc (fib : BitVec 5) (rd : RegIdx)
  /-- Branch Conditional Relative (R121). -/
  | brr (fib : BitVec 5) (rd : RegIdx)
  /-- Shift Immediate; `la` is the LA bit, `shim` the sign-and-magnitude amount (R170). -/
  | shi (la : Bool) (rd : RegIdx) (shim : BitVec 5)
  /-- Not Registered; `c` is the 1/2C bit (R171). -/
  | ntr (c : Bool) (rd rs1 : RegIdx)
  /-- Not Registered on the destination register; `c` is the 1/2C bit (R172). -/
  | ntd (c : Bool) (rd : RegIdx)
  /-- AND Immediate-Register, the shadow of ANI (R132). -/
  | anir (rd rs1 : RegIdx) (imm4 : BitVec 4)
  /-- The undescribed shadow of MSI (R146). -/
  | msiShadow (rd : RegIdx) (imm8 : BitVec 8)
  /-- Add Immediate-Register, the shadow of ADI (R143). -/
  | adir (rd rs1 : RegIdx) (imm4 : BitVec 4)
  /-- Subtract Immediate-Register, the shadow of SUI (R145). -/
  | suir (rd rs1 : RegIdx) (imm4 : BitVec 4)
  /-- Multiply Registered Signed, a shadow of MUL (R161). -/
  | muls (rd rs1 rs2 : RegIdx)
  /-- Multiply, low half only, a shadow of MUL (R162, R163). -/
  | mull (rd rs1 rs2 : RegIdx)
  /-- Divide signed, a shadow of DIV (R165). -/
  | divs (rd rs1 rs2 : RegIdx)
  /-- Divide, quotient only, a shadow of DIV; R15[12] selects signed (R166). -/
  | divq (rd rs1 rs2 : RegIdx)
  /-- Compare Registered Signed, the shadow of CMR (R115). -/
  | cmrs (rs1 rd : RegIdx)
  /-- Compare Immediate Signed, the shadow of CMI (R117). -/
  | cmis (imm5 : BitVec 5) (rd : RegIdx)
  /-- A word of the reserved opcode 0000 and its low twelve bits (R83). -/
  | reserved0 (low : BitVec 12)
  /-- A word of the reserved opcode 0001 and its low twelve bits (R83). -/
  | reserved1 (low : BitVec 12)
deriving DecidableEq, Repr

end Sys2Proof
end

