-- ==== Sys2Proof/WellFormed.lean ====
section
/-! DEFINITION. Which terms of `Instr` are instructions of SAYAC. Operand widths are in the types, so two checks are
left: the opcode is not a reserved one (30_encoding.md R83), and a branch names a condition of Table 1 (R84). -/

namespace Sys2Proof

/-- FIB[2:0] is one of the six conditions of Table 1; FIB[4:3] are ignored (R84). -/
def Instr.fibInTable (fib : BitVec 5) : Bool :=
  decide ((fib.extractLsb' 0 3).toNat < 6)

/-- The term is an instruction the manual names, with a condition the manual names. -/
def Instr.wellFormed : Instr → Bool
  | .ldr _ _ => true
  | .ldrIo _ _ => true
  | .str _ _ => true
  | .strIo _ _ => true
  | .jmr _ _ _ => true
  | .jmi _ _ => true
  | .anr _ _ _ => true
  | .ani _ _ => true
  | .msi _ _ => true
  | .mhi _ _ => true
  | .slr _ _ _ => true
  | .sar _ _ _ => true
  | .adr _ _ _ => true
  | .sur _ _ _ => true
  | .adi _ _ => true
  | .sui _ _ => true
  | .mul _ _ _ => true
  | .div _ _ _ => true
  | .cmr _ _ => true
  | .cmi _ _ => true
  | .brc fib _ => Instr.fibInTable fib
  | .brr fib _ => Instr.fibInTable fib
  | .shi _ _ _ => true
  | .ntr _ _ _ => true
  | .ntd _ _ => true
  | .anir _ _ _ => true
  | .msiShadow _ _ => true
  | .adir _ _ _ => true
  | .suir _ _ _ => true
  | .muls _ _ _ => true
  | .mull _ _ _ => true
  | .divs _ _ _ => true
  | .divq _ _ _ => true
  | .cmrs _ _ => true
  | .cmis _ _ => true
  | .reserved0 _ => false
  | .reserved1 _ => false

end Sys2Proof
end

