-- ==== Sys2Proof/Decode.lean ====
section
/-! DEFINITION. Decoding (30_encoding.md R81) and encoding (R72 to R80). `decode` is total on any 16-bit word and any
R15; a reserved word is decoded to the reserved row it belongs to. The encoder emits 0 in the bits no field covers
(R85). -/

namespace Sys2Proof

/-! The shadow bits of R15 (10_state.md R32, R35). -/

/-- SH_RI: ANI, ADI, SUI take a register and a 4-bit immediate. -/
def shRI (r15 : Word) : Bool := r15.getLsbD 15

/-- SH_MSI: the undescribed shadow of MSI. -/
def shMsi (r15 : Word) : Bool := r15.getLsbD 14

/-- SH_MULL: multiply writes the low half only. -/
def shMull (r15 : Word) : Bool := r15.getLsbD 13

/-- SH_SIGNED: multiply and divide are signed. -/
def shSigned (r15 : Word) : Bool := r15.getLsbD 12

/-- SH_DIVQ: divide writes the quotient only. -/
def shDivq (r15 : Word) : Bool := r15.getLsbD 11

/-- SH_CMPS: compares are signed. -/
def shCmps (r15 : Word) : Bool := r15.getLsbD 10

/-! The fields of the instruction register (R71 to R78). -/

/-- IR[15:12]. -/
def irOpcode (w : Word) : BitVec 4 := w.extractLsb' 12 4

/-- IR[11:10], the opcode extension. -/
def irExt (w : Word) : BitVec 2 := w.extractLsb' 10 2

/-- IR[9]: the Memory/IO bit, s, LA, or the selector inside an extension. -/
def irOpt (w : Word) : Bool := w.getLsbD 9

/-- IR[8] of format N: the 1/2C bit. -/
def irC (w : Word) : Bool := w.getLsbD 8

/-- IR[11:8]: rs2 of format RRR, imm4 of format RI4. -/
def irRs2 (w : Word) : BitVec 4 := w.extractLsb' 8 4

/-- IR[7:4]. -/
def irRs1 (w : Word) : RegIdx := w.extractLsb' 4 4

/-- IR[3:0]. -/
def irRd (w : Word) : RegIdx := w.extractLsb' 0 4

/-- IR[11:4] of format RI8. -/
def irImm8 (w : Word) : BitVec 8 := w.extractLsb' 4 8

/-- IR[9:4] of format J6. -/
def irImm6 (w : Word) : BitVec 6 := w.extractLsb' 4 6

/-- IR[8:4] of format X5: imm5, FIB or shim. -/
def irF5 (w : Word) : BitVec 5 := w.extractLsb' 4 5

/-- IR[11:0] of a reserved word. -/
def irLow (w : Word) : BitVec 12 := w.extractLsb' 0 12

/-- Opcode 0010: the extension selects the instruction (R81). -/
def decodeTransfer (w : Word) : Instr :=
  if irExt w = 0b00#2 then
    if irOpt w then .ldrIo (irRd w) (irRs1 w) else .ldr (irRd w) (irRs1 w)
  else if irExt w = 0b01#2 then
    if irOpt w then .strIo (irRd w) (irRs1 w) else .str (irRd w) (irRs1 w)
  else if irExt w = 0b10#2 then .jmr (irOpt w) (irRd w) (irRs1 w)
  else .jmi (irRd w) (irImm6 w)

/-- Opcode 1111: the extension and IR[9] select the instruction, R15[10] the signed compares (R81). -/
def decodeExtended (r15 w : Word) : Instr :=
  if irExt w = 0b00#2 then
    if irOpt w then
      if shCmps r15 then .cmis (irF5 w) (irRd w) else .cmi (irF5 w) (irRd w)
    else
      if shCmps r15 then .cmrs (irRs1 w) (irRd w) else .cmr (irRs1 w) (irRd w)
  else if irExt w = 0b01#2 then
    if irOpt w then .brr (irF5 w) (irRd w) else .brc (irF5 w) (irRd w)
  else if irExt w = 0b10#2 then .shi (irOpt w) (irRd w) (irF5 w)
  else if irOpt w then .ntd (irC w) (irRd w)
  else .ntr (irC w) (irRd w) (irRs1 w)

/-- The instruction a word is while R15 holds `r15` (R81). Where two shadow bits meet, R15[13] makes a multiply a MULL
whatever R15[12] (R163), and R15[11] a divide a DIVQ, which reads R15[12] itself (R166). -/
def decode (r15 w : Word) : Instr :=
  match (irOpcode w).toNat with
  | 0 => .reserved0 (irLow w)
  | 1 => .reserved1 (irLow w)
  | 2 => decodeTransfer w
  | 3 => .anr (irRd w) (irRs1 w) (irRs2 w)
  | 4 => if shRI r15 then .anir (irRd w) (irRs1 w) (irRs2 w) else .ani (irRd w) (irImm8 w)
  | 5 => if shMsi r15 then .msiShadow (irRd w) (irImm8 w) else .msi (irRd w) (irImm8 w)
  | 6 => .mhi (irRd w) (irImm8 w)
  | 7 => .slr (irRd w) (irRs1 w) (irRs2 w)
  | 8 => .sar (irRd w) (irRs1 w) (irRs2 w)
  | 9 => .adr (irRd w) (irRs1 w) (irRs2 w)
  | 10 => .sur (irRd w) (irRs1 w) (irRs2 w)
  | 11 => if shRI r15 then .adir (irRd w) (irRs1 w) (irRs2 w) else .adi (irRd w) (irImm8 w)
  | 12 => if shRI r15 then .suir (irRd w) (irRs1 w) (irRs2 w) else .sui (irRd w) (irImm8 w)
  | 13 =>
    if shMull r15 then .mull (irRd w) (irRs1 w) (irRs2 w)
    else if shSigned r15 then .muls (irRd w) (irRs1 w) (irRs2 w)
    else .mul (irRd w) (irRs1 w) (irRs2 w)
  | 14 =>
    if shDivq r15 then .divq (irRd w) (irRs1 w) (irRs2 w)
    else if shSigned r15 then .divs (irRd w) (irRs1 w) (irRs2 w)
    else .div (irRd w) (irRs1 w) (irRs2 w)
  | _ => decodeExtended r15 w

/-- The bits of a word that no field of its row covers (R85): IR[8] of LDR, LDRio, STR, STRio, JMR, CMR and CMRS,
IR[7:4] of NTD. -/
def fieldlessBits (w : Word) : Word :=
  if w &&& 0xF800#16 = 0x2000#16 ∨ w &&& 0xFC00#16 = 0x2800#16 ∨ w &&& 0xFE00#16 = 0xF000#16 then 0x0100#16
  else if w &&& 0xFE00#16 = 0xFE00#16 then 0x00F0#16
  else 0x0000#16

/-! The formats (R72 to R78), most significant field first. -/

/-- Format RRR (R72). -/
def encRRR (op : BitVec 4) (rs2 rs1 rd : RegIdx) : Word := op ++ rs2 ++ rs1 ++ rd

/-- Format RI8 (R73). -/
def encRI8 (op : BitVec 4) (imm8 : BitVec 8) (rd : RegIdx) : Word := op ++ imm8 ++ rd

/-- Format RI4 (R74). -/
def encRI4 (op imm4 : BitVec 4) (rs1 rd : RegIdx) : Word := op ++ imm4 ++ rs1 ++ rd

/-- Format XR, bit 8 emitted as 0 (R75, R85). -/
def encXR (op : BitVec 4) (ext : BitVec 2) (opt : Bool) (rs1 rd : RegIdx) : Word :=
  op ++ ext ++ BitVec.ofBool opt ++ 0b0#1 ++ rs1 ++ rd

/-- Format J6 (R76). -/
def encJ6 (imm6 : BitVec 6) (rd : RegIdx) : Word := 0b0010#4 ++ 0b11#2 ++ imm6 ++ rd

/-- Format X5 (R77). -/
def encX5 (ext : BitVec 2) (opt : Bool) (f5 : BitVec 5) (rd : RegIdx) : Word :=
  0b1111#4 ++ ext ++ BitVec.ofBool opt ++ f5 ++ rd

/-- Format N (R78). -/
def encN (d c : Bool) (rs1 rd : RegIdx) : Word :=
  0b1111#4 ++ 0b11#2 ++ BitVec.ofBool d ++ BitVec.ofBool c ++ rs1 ++ rd

/-- The word of an instruction (R80). -/
def encode : Instr → Word
  | .ldr rd rs1 => encXR 0b0010#4 0b00#2 false rs1 rd
  | .ldrIo rd rs1 => encXR 0b0010#4 0b00#2 true rs1 rd
  | .str rd rs1 => encXR 0b0010#4 0b01#2 false rs1 rd
  | .strIo rd rs1 => encXR 0b0010#4 0b01#2 true rs1 rd
  | .jmr s rd rs1 => encXR 0b0010#4 0b10#2 s rs1 rd
  | .jmi rd imm6 => encJ6 imm6 rd
  | .anr rd rs1 rs2 => encRRR 0b0011#4 rs2 rs1 rd
  | .ani rd imm8 => encRI8 0b0100#4 imm8 rd
  | .msi rd imm8 => encRI8 0b0101#4 imm8 rd
  | .mhi rd imm8 => encRI8 0b0110#4 imm8 rd
  | .slr rd rs1 rs2 => encRRR 0b0111#4 rs2 rs1 rd
  | .sar rd rs1 rs2 => encRRR 0b1000#4 rs2 rs1 rd
  | .adr rd rs1 rs2 => encRRR 0b1001#4 rs2 rs1 rd
  | .sur rd rs1 rs2 => encRRR 0b1010#4 rs2 rs1 rd
  | .adi rd imm8 => encRI8 0b1011#4 imm8 rd
  | .sui rd imm8 => encRI8 0b1100#4 imm8 rd
  | .mul rd rs1 rs2 => encRRR 0b1101#4 rs2 rs1 rd
  | .div rd rs1 rs2 => encRRR 0b1110#4 rs2 rs1 rd
  | .cmr rs1 rd => encXR 0b1111#4 0b00#2 false rs1 rd
  | .cmi imm5 rd => encX5 0b00#2 true imm5 rd
  | .brc fib rd => encX5 0b01#2 false fib rd
  | .brr fib rd => encX5 0b01#2 true fib rd
  | .shi la rd shim => encX5 0b10#2 la shim rd
  | .ntr c rd rs1 => encN false c rs1 rd
  | .ntd c rd => encN true c 0b0000#4 rd
  | .anir rd rs1 imm4 => encRI4 0b0100#4 imm4 rs1 rd
  | .msiShadow rd imm8 => encRI8 0b0101#4 imm8 rd
  | .adir rd rs1 imm4 => encRI4 0b1011#4 imm4 rs1 rd
  | .suir rd rs1 imm4 => encRI4 0b1100#4 imm4 rs1 rd
  | .muls rd rs1 rs2 => encRRR 0b1101#4 rs2 rs1 rd
  | .mull rd rs1 rs2 => encRRR 0b1101#4 rs2 rs1 rd
  | .divs rd rs1 rs2 => encRRR 0b1110#4 rs2 rs1 rd
  | .divq rd rs1 rs2 => encRRR 0b1110#4 rs2 rs1 rd
  | .cmrs rs1 rd => encXR 0b1111#4 0b00#2 false rs1 rd
  | .cmis imm5 rd => encX5 0b00#2 true imm5 rd
  | .reserved0 low => 0b0000#4 ++ low
  | .reserved1 low => 0b0001#4 ++ low

/-- The shadow bits in `r15` select this row among the rows that share its word (R80, 10_state.md R32). -/
def Instr.selectedBy (r15 : Word) : Instr → Bool
  | .ldr _ _ => true
  | .ldrIo _ _ => true
  | .str _ _ => true
  | .strIo _ _ => true
  | .jmr _ _ _ => true
  | .jmi _ _ => true
  | .anr _ _ _ => true
  | .ani _ _ => !shRI r15
  | .msi _ _ => !shMsi r15
  | .mhi _ _ => true
  | .slr _ _ _ => true
  | .sar _ _ _ => true
  | .adr _ _ _ => true
  | .sur _ _ _ => true
  | .adi _ _ => !shRI r15
  | .sui _ _ => !shRI r15
  | .mul _ _ _ => !shMull r15 && !shSigned r15
  | .div _ _ _ => !shDivq r15 && !shSigned r15
  | .cmr _ _ => !shCmps r15
  | .cmi _ _ => !shCmps r15
  | .brc _ _ => true
  | .brr _ _ => true
  | .shi _ _ _ => true
  | .ntr _ _ _ => true
  | .ntd _ _ => true
  | .anir _ _ _ => shRI r15
  | .msiShadow _ _ => shMsi r15
  | .adir _ _ _ => shRI r15
  | .suir _ _ _ => shRI r15
  | .muls _ _ _ => !shMull r15 && shSigned r15
  | .mull _ _ _ => shMull r15
  | .divs _ _ _ => !shDivq r15 && shSigned r15
  | .divq _ _ _ => shDivq r15
  | .cmrs _ _ => shCmps r15
  | .cmis _ _ => shCmps r15
  | .reserved0 _ => true
  | .reserved1 _ => true

/-- What the decoder reads from the `nbits` low bits `w` of an instruction, with R15 = 0 as at reset (log 26): the base
row of the word. An instruction is one 16-bit word (R70), so a wider number is no instruction. -/
def decodeTableWord (nbits w : Nat) : Option Instr :=
  if nbits ≤ 16 ∧ w < 2 ^ nbits then some (decode 0#16 (BitVec.ofNat 16 w)) else none

end Sys2Proof
end

