-- ==== Sys2Proof/Config.lean ====
section
/-! DEFINITION. What an implementation fixes (the open parameters of 00_scope.md R7 that the model runs at every
setting) and the free values, opaque constants of which nothing can be proved. -/

namespace Sys2Proof

/-- The kinds of memory access MEM_MAP tells apart (92_eei_decisions.md D24). -/
inductive AccessKind where
  | fetch
  | load
  | store
deriving DecidableEq, Repr

/-- One stretch of memory addresses, both ends included, and the accesses it admits. -/
structure Region where
  first : Word
  last : Word
  fetch : Bool
  load : Bool
  store : Bool
deriving DecidableEq, Repr

/-- `MEM_MAP`: an access is admitted where some region admits it (20_memory.md R52, R53, R60). -/
abbrev MemMap := List Region

/-- `REG_SHIFT_AMOUNT_FORMAT`: how SLR and SAR read their 5-bit amount (42_logic_move_shift_add.md R134). -/
inductive ShiftFormat where
  | signMagnitude
  | twosComplement
deriving DecidableEq, Repr

/-- `DIV_BY_ZERO`: what a division by zero does (43_mul_div_shi_not.md R168). -/
inductive DivByZero where
  | fault
  | anyValue
deriving DecidableEq, Repr

/-- `IGNORED_BITS`: what a 1 in an instruction bit that no field covers does (30_encoding.md R85). -/
inductive IgnoredBits where
  | ignore
  | mustBeZero
deriving DecidableEq, Repr

/-- `R15_UNDOC_POLICY`: how R15[9:8], R15[7:6] and R15[3:0] behave (10_state.md R34). -/
inductive R15UndocPolicy where
  | storage
  | volatile
deriving DecidableEq, Repr

/-- The open parameters of one machine. No instruction reads or writes them as data (log 9). -/
structure Platform where
  memMap : MemMap
  regShiftFormat : ShiftFormat
  divByZero : DivByZero
  ignoredBits : IgnoredBits
  r15Undoc : R15UndocPolicy
deriving DecidableEq, Repr

/-- FREE VALUE: the byte a byte of memory holds when nothing has defined it (20_memory.md R52: a word nothing has
defined reads as any 16-bit value). It depends on the place alone, since memory reads are idempotent (R59). Log 4. -/
opaque Config.undefinedByte : Nat → Byte

/-- FREE VALUE: the `n`-th 16-bit value a run draws: the answer of an IO read (20_memory.md R55) or a result of a
division by zero (43_mul_div_shi_not.md R168). Log 6, log 8. -/
opaque Config.draw : Nat → Word

/-- FREE VALUE: what the undescribed bits of R15 read as where they are volatile, by the count of free values drawn and
by which operand of the instruction reads them, so that no two reads need agree (10_state.md R34). Log 12. -/
opaque Config.undescribedR15 : Nat → Nat → Word

end Sys2Proof
end

