-- ==== Sys2Proof/Machine/Platform.lean ====
section
/-! DEFINITION. What MEM_MAP admits, and the setting of each open parameter (00_scope.md R7) that the reset state has. -/

namespace Sys2Proof.Machine

/-- The region admits accesses of this kind. -/
def regionPermits (r : Region) : AccessKind → Bool
  | .fetch => r.fetch
  | .load => r.load
  | .store => r.store

/-- MEM_MAP admits this kind of access at this address (20_memory.md R52, R53). -/
def mapAdmits (map : MemMap) (k : AccessKind) (a : Word) : Bool :=
  map.any fun r => decide (r.first.toNat ≤ a.toNat) && decide (a.toNat ≤ r.last.toNat) && regionPermits r k

/-- UNVERIFIED (unsafe, log 9): the default of D24, every address is readable, writable and fetchable RAM. -/
def allRam : MemMap := [{ first := 0x0000#16, last := 0xFFFF#16, fetch := true, load := true, store := true }]

/-- The parameters at reset, each at the spec's default: MEM_MAP (D24), REG_SHIFT_AMOUNT_FORMAT (D15), DIV_BY_ZERO (D18),
IGNORED_BITS (D6), R15_UNDOC_POLICY (D12). UNVERIFIED (unsafe but for DIV_BY_ZERO, log 8 to log 12). -/
def defaultPlatform : Platform :=
  { memMap := allRam, regShiftFormat := .signMagnitude, divByZero := .fault, ignoredBits := .ignore,
    r15Undoc := .storage }

end Sys2Proof.Machine
end

