-- ==== Sys2Proof/Machine/State.lean ====
section
/-! DEFINITION. The whole state of a SAYAC machine (10_state.md R20), the reasons a step can stop, and the state at
reset. SAYAC has no flags register, status register, control register, saved pc, mode or interrupt state beside what
stands here (R20, R39; 60_exceptions.md R190 to R196). -/

namespace Sys2Proof.Machine

/-- One exchange with an IO device, as the event history records it (20_memory.md R55, R56). -/
inductive IoEvent where
  /-- An IO read at `addr` answered `value`. -/
  | read (addr value : Word)
  /-- An IO write of `value` at `addr`. -/
  | write (addr value : Word)
deriving DecidableEq, Repr

/-- Memory: the bytes something has defined, by rising place; the word at address `a` is the bytes at `2a` (bits 7:0)
and `2a + 1` (bits 15:8). DESIGN CHOICE (safe, log 5): no access sees a byte order (20_memory.md R57). -/
abbrev Memory := List Host.Cell

structure State where
  /-- R1 to R15, R1 first. R0 is constant and is not stored (10_state.md R22). -/
  regs : Vector Word 15
  /-- The program counter (R27). -/
  pc : Word
  /-- The one memory, of code and data (20_memory.md R50, R51). -/
  mem : Memory
  /-- What the core has exchanged with the IO devices, in program order (R55, R56). -/
  ioHistory : List IoEvent
  /-- How many free values the run has drawn; the model's own field (log 7). -/
  draws : Nat
  /-- The open parameters of the machine (00_scope.md R7), which no instruction changes (log 9). -/
  platform : Platform
deriving DecidableEq, Repr

/-- Why a step stops (60_exceptions.md R191). A fault leaves no next state, so it changes nothing (R191, R194); `pc` is
the pc of the instruction. Each is safe: the manual gives the case no behaviour (log 22). -/
inductive Fault where
  /-- Safe. Raised by RESERVED0 and RESERVED1: opcode 0000 or 0001 (R83); and by `step` for a word with a 1 in a bit no
  field covers, where the platform's IGNORED_BITS is `mustBeZero` (R85). -/
  | reservedOpcode (pc : Word)
  /-- Safe. Raised by BRC and BRR with FIB[2:0] = 110 or 111 (R84). -/
  | reservedCondition (pc : Word)
  /-- Safe. Raised by MSI-SHADOW: opcode 0101 while R15[14] = 1 (R146). -/
  | undescribedShadow (pc : Word)
  /-- Safe. Raised by DIV, DIVS and DIVQ with a zero divisor where the platform's DIV_BY_ZERO is `fault` (R168). -/
  | divideByZero (pc : Word)
  /-- Safe. Raised by an instruction that would write a 1 to R15[9:8] where the platform's R15_UNDOC_POLICY is
  `volatile` (R34). -/
  | undescribedShadowWrite (pc : Word)
  /-- Safe. Raised by instruction fetch, LDR and STR at an address MEM_MAP does not admit (R52, R53). -/
  | unmappedAccess (kind : AccessKind) (addr pc : Word)
deriving DecidableEq, Repr

/-- Why an instruction has no meaning in the model. -/
inductive Refusal where
  /-- Safe. Raised by `exec` for an instruction that has no meaning yet; no arm is left that raises it. -/
  | notModelled (mnemonic : String)
deriving DecidableEq, Repr

/-- The machine right after reset, nothing loaded. DESIGN CHOICE (unsafe, log 1 to log 3): the spec gives R1 to R15 and pc
no reset value, and the model takes 0 for each. -/
def State.reset : State :=
  { regs := Vector.replicate 15 0x0000#16, pc := 0x0000#16, mem := [], ioHistory := [], draws := 0,
    platform := defaultPlatform }

end Sys2Proof.Machine
end

