-- ==== Sys2Proof/Machine/Ops.lean ====
section
/-! DEFINITION. The named operations over memory, IO, registers and pc that every meaning is written in (00_scope.md
R10), and the one operation that raises a model fault. SAYAC takes no exception: there is no saved state, no vector and
no return from one (60_exceptions.md R190, R194, R195), so raising a fault is the whole of it. -/

namespace Sys2Proof.Machine

/-- What a step answers. -/
abbrev Result := Host.Outcome State Fault Refusal

/-- Raise a model fault: nothing is changed, the fault carries the pc of the instruction (60_exceptions.md R191). -/
def raise (why : Word → Fault) (s : State) : Result := .fault (why s.pc)

/-! Memory. -/

/-- The byte defined at a place, if any. -/
def Memory.find : Memory → Nat → Option Byte
  | [], _ => none
  | (p, b) :: rest, k => if p = k then some b else Memory.find rest k

/-- Define the byte at a place. -/
def Memory.insert : Memory → Nat → Byte → Memory
  | [], k, v => [(k, v)]
  | (p, b) :: rest, k, v =>
    if k < p then (k, v) :: (p, b) :: rest
    else if k = p then (k, v) :: rest
    else (p, b) :: Memory.insert rest k v

/-- What a byte of memory reads as. Where nothing has defined it, a free value (20_memory.md R52; log 4). -/
def Memory.byteAt (m : Memory) (k : Nat) : Byte := (Memory.find m k).getD (Config.undefinedByte k)

/-- The place of bits 7:0 of the word at `a`. -/
def lowPlace (a : Word) : Nat := 2 * a.toNat

/-- The place of bits 15:8 of the word at `a`. -/
def highPlace (a : Word) : Nat := 2 * a.toNat + 1

/-- The word at an address (20_memory.md R50, R52). -/
def Memory.readWord (m : Memory) (a : Word) : Word :=
  Memory.byteAt m (highPlace a) ++ Memory.byteAt m (lowPlace a)

/-- Make the word at an address `v`, all 16 bits at once (R53). -/
def Memory.writeWord (m : Memory) (a v : Word) : Memory :=
  Memory.insert (Memory.insert m (lowPlace a) (v.extractLsb' 0 8)) (highPlace a) (v.extractLsb' 8 8)

/-- Every place listed lies at or above `lo` and below the end of memory, and places rise strictly. -/
def Memory.wfFrom : Nat → Memory → Bool
  | _, [] => true
  | lo, (p, _) :: rest => decide (lo ≤ p) && decide (p < 131072) && Memory.wfFrom (p + 1) rest

/-- The canonical form of a memory. An unlisted place holds no defined byte, so no entry can repeat what an unlisted
place holds, and equal memories are equal lists. -/
def Memory.wf (m : Memory) : Bool := Memory.wfFrom 0 m

/-- `MemRead` (R52): the word, or none where MEM_MAP does not admit the load. It changes nothing. -/
def memRead (s : State) (a : Word) : Option Word :=
  if mapAdmits s.platform.memMap .load a then some (Memory.readWord s.mem a) else none

/-- `MemWrite` (R53): the state with the word stored, or none where MEM_MAP does not admit the store. -/
def memWrite (s : State) (a v : Word) : Option State :=
  if mapAdmits s.platform.memMap .store a then some { s with mem := Memory.writeWord s.mem a v } else none

/-- Instruction fetch from pc: code and data are one memory (R51, R65). Whether the word may be decoded is
`acceptsWord`. -/
def fetchWord (s : State) : Option Word :=
  if mapAdmits s.platform.memMap .fetch s.pc then some (Memory.readWord s.mem s.pc) else none

/-- The word may be decoded: no bit that no field covers is 1, or such bits are ignored (30_encoding.md R85; log 11). -/
def acceptsWord (s : State) (w : Word) : Bool :=
  decide (s.platform.ignoredBits = .ignore) || decide (w &&& fieldlessBits w = 0#16)

/-! IO. -/

/-- The answer to the next IO read, a free value (R55; log 6). -/
def ioAnswer (s : State) : Word := Config.draw s.draws

/-- `IORead` (R55): one event with the answer drawn, whatever the answer is used for (R59). -/
def ioRead (s : State) (a : Word) : State :=
  { s with ioHistory := s.ioHistory ++ [.read a (ioAnswer s)], draws := s.draws + 1 }

/-- `IOWrite` (R56): one event; no register and no memory word changes. -/
def ioWrite (s : State) (a v : Word) : State :=
  { s with ioHistory := s.ioHistory ++ [.write a v] }

/-! Registers. -/

/-- `x[i]`: R0 reads 0 (10_state.md R22), every other register, R15 included, its own 16 bits (R21, R24). -/
def State.readReg (s : State) (i : RegIdx) : Word :=
  if i = 0#4 then 0#16 else s.regs.getD (i.toNat - 1) 0#16

/-- `x[i] <- v`: a write of R0 is discarded (R22). -/
def State.writeReg (s : State) (i : RegIdx) (v : Word) : State :=
  if i = 0#4 then s else { s with regs := s.regs.setIfInBounds (i.toNat - 1) v }

/-- R15, the same storage as `x[15]` (R23, R24), as the hardware itself reads it for shadow bits and flags. -/
def State.r15 (s : State) : Word := s.readReg 15#4

/-- The second destination of multiply and divide, `(rd + 1) mod 16` (R25). -/
def secondReg (rd : RegIdx) : RegIdx := rd + 1#4

/-- Write the first result to `rd` and, unless a shadow bit suppresses it, the second to `rd + 1` (R25, R163, R166). -/
def State.writePair (s : State) (firstOnly : Bool) (rd : RegIdx) (first second : Word) : State :=
  if firstOnly then s.writeReg rd first else (s.writeReg rd first).writeReg (secondReg rd) second

/-- The bits of R15 without a described function: R15[9:8], R15[7:6], R15[3:0] (R34). -/
def undescribedBits : Word := 0x03CF#16

/-- What an instruction gets when it reads register `i` as its operand number `slot`: the register's content; where
R15_UNDOC_POLICY is volatile, any value in the undescribed bits of R15 (R34; log 12). Shadow decode and flags read R15
itself (`State.r15`), never these bits. -/
def State.operand (s : State) (slot : Nat) (i : RegIdx) : Word :=
  if i = 15#4 ∧ s.platform.r15Undoc = .volatile then
    (s.r15 &&& ~~~ undescribedBits) ||| (Config.undescribedR15 s.draws slot &&& undescribedBits)
  else s.readReg i

/-- The first register an instruction reads. -/
def State.operandA (s : State) (i : RegIdx) : Word := s.operand 0 i

/-- The second register an instruction reads. -/
def State.operandB (s : State) (i : RegIdx) : Word := s.operand 1 i

/-- An instruction has read these registers as operands: a volatile read of R15 counts as a draw, so that the next one
reads another free value (log 7, log 12). -/
def State.afterReading (s : State) (is : List RegIdx) : State :=
  if 15#4 ∈ is ∧ s.platform.r15Undoc = .volatile then { s with draws := s.draws + 1 } else s

/-- The write is no write of a 1 to R15[9:8] where R15 is volatile (R34). -/
def State.acceptsWrite (s : State) (i : RegIdx) (v : Word) : Bool :=
  !(decide (i = 15#4) && decide (s.platform.r15Undoc = .volatile) && decide (v.extractLsb' 8 2 ≠ 0#2))

/-! The program counter. -/

/-- The word after the instruction, mod 2^16 (10_state.md R28, R29). -/
def nextPc (s : State) : Word := s.pc + 1#16

/-- `pc <- pc + 1` (R28). -/
def State.advance (s : State) : State := { s with pc := nextPc s }

/-- `pc <- t` (R29: every 16-bit value is a legal pc). -/
def State.jumpTo (s : State) (t : Word) : State := { s with pc := t }

/-! How most instructions end. -/

/-- `x[rd] <- v` and `pc <- t`; a write that R15 refuses is a fault (R34). -/
def writeAndJump (rd : RegIdx) (v t : Word) (s : State) : Result :=
  if s.acceptsWrite rd v then .next ((s.writeReg rd v).jumpTo t) else raise .undescribedShadowWrite s

/-- `x[rd] <- v` and on to the next word. -/
def writeAndAdvance (rd : RegIdx) (v : Word) (s : State) : Result := writeAndJump rd v (nextPc s) s

/-- Write one result, or two, and on to the next word; a write that R15 refuses is a fault (R25, R34). -/
def writePairAndAdvance (firstOnly : Bool) (rd : RegIdx) (first second : Word) (s : State) : Result :=
  if s.acceptsWrite rd first && (firstOnly || s.acceptsWrite (secondReg rd) second) then
    .next (s.writePair firstOnly rd first second).advance
  else raise .undescribedShadowWrite s

/-- What an instruction with one register operand and one result shares: `x[rd] <- f x[rs]`. -/
def unary (f : Word → Word) (rd rs : RegIdx) (s : State) : Result :=
  writeAndAdvance rd (f (s.operandA rs)) (s.afterReading [rs])

/-- What an instruction with two register operands and one result shares: `x[rd] <- f x[rs1] x[rs2]`. -/
def binary (f : Word → Word → Word) (rd rs1 rs2 : RegIdx) (s : State) : Result :=
  writeAndAdvance rd (f (s.operandA rs1) (s.operandB rs2)) (s.afterReading [rs1, rs2])

end Sys2Proof.Machine
end

