-- ==== Sys2Proof/Machine/Operands.lean ====
section
/-! DEFINITION. The operand forms: the extension of every immediate (30_encoding.md R79), the signed shift amounts
(42_logic_move_shift_add.md R134), and the exact arithmetic of shifts, products and quotients, narrowed once at the end
(R9). Two's complement is the signed reading throughout (43_mul_div_shi_not.md R173, 93 G1; log 19). -/

namespace Sys2Proof.Machine

/-- ANI (R79). -/
def zext8 (v : BitVec 8) : Word := v.setWidth 16

/-- ANIR (R79). -/
def zext4 (v : BitVec 4) : Word := v.setWidth 16

/-- MSI, ADI, SUI (R79). -/
def sext8 (v : BitVec 8) : Word := v.signExtend 16

/-- JMI (R79). -/
def sext6 (v : BitVec 6) : Word := v.signExtend 16

/-- CMI, CMIS (R79). -/
def sext5 (v : BitVec 5) : Word := v.signExtend 16

/-- ADIR, SUIR (R79). -/
def sext4 (v : BitVec 4) : Word := v.signExtend 16

/-- MHI: bits 15:8 replaced, bits 7:0 kept (R137). -/
def withHighByte (old : Word) (imm8 : BitVec 8) : Word := imm8 ++ old.extractLsb' 0 8

/-! Shifts. -/

/-- A shift amount with its direction: (+) is right, (-) is left (R134). -/
inductive ShiftAmount where
  | right (by_ : Nat)
  | left (by_ : Nat)
deriving DecidableEq, Repr

/-- A sign-and-magnitude amount: bit 4 the sign, bits 3:0 the magnitude (R134, 93 G2). -/
def signMagnitudeAmount (a5 : BitVec 5) : ShiftAmount :=
  if a5.getLsbD 4 then .left (a5.extractLsb' 0 4).toNat else .right (a5.extractLsb' 0 4).toNat

/-- A two's-complement amount: 10000 to 11111 is left by 16 down to 1 (R134). -/
def twosComplementAmount (a5 : BitVec 5) : ShiftAmount :=
  if a5.getLsbD 4 then .left (32 - a5.toNat) else .right a5.toNat

/-- The amount of SLR and SAR in the platform's format (R134; log 10). -/
def registerAmount (fmt : ShiftFormat) (a5 : BitVec 5) : ShiftAmount :=
  match fmt with
  | .signMagnitude => signMagnitudeAmount a5
  | .twosComplement => twosComplementAmount a5

/-- `shift(v, amount, arith)` (R135). -/
def shift (v : Word) (amount : ShiftAmount) (arith : Bool) : Word :=
  match amount with
  | .right m => if arith then v.sshiftRight m else v >>> m
  | .left m => v <<< m

/-! Products (43_mul_div_shi_not.md R160, R161). -/

/-- The 32-bit product, of the signed or of the unsigned readings. -/
def product (signed : Bool) (a b : Word) : BitVec 32 :=
  if signed then BitVec.ofInt 32 (a.toInt * b.toInt) else BitVec.ofNat 32 (a.toNat * b.toNat)

/-- P[15:0]. -/
def lowHalf (p : BitVec 32) : Word := p.extractLsb' 0 16

/-- P[31:16]. -/
def highHalf (p : BitVec 32) : Word := p.extractLsb' 16 16

/-! Quotients, for a divisor that is not zero (R164, R165, R167, R169). -/

/-- The quotient; signed, rounded toward zero. -/
def quotient (signed : Bool) (a b : Word) : Word :=
  if signed then BitVec.ofInt 16 (a.toInt.tdiv b.toInt) else BitVec.ofNat 16 (a.toNat / b.toNat)

/-- The remainder `a - q * b`; signed, with the sign of the dividend. -/
def remainder (signed : Bool) (a b : Word) : Word :=
  if signed then BitVec.ofInt 16 (a.toInt.tmod b.toInt) else BitVec.ofNat 16 (a.toNat % b.toNat)

/-- One's complement, or two's complement where `c` is set (R171). -/
def complement (c : Bool) (v : Word) : Word := if c then ~~~v + 1#16 else ~~~v

end Sys2Proof.Machine
end

