-- ==== Sys2Proof/Machine/Flags.lean ====
section
/-! DEFINITION. The flags G = R15[5] and E = R15[4]: what a compare makes of them (10_state.md R30,
41_control_flow.md R113) and what a branch reads in them (R112). There is no stored L flag (R31), and no instruction but
a compare writes a flag as a side effect (R33; log 13). -/

namespace Sys2Proof.Machine

/-- G, R15[5]. -/
def State.flagG (s : State) : Bool := s.r15.getLsbD 5

/-- E, R15[4]. -/
def State.flagE (s : State) : Bool := s.r15.getLsbD 4

/-- R15 with G and E replaced and every other bit kept (R113). -/
def withFlags (r15 : Word) (g e : Bool) : Word :=
  r15.extractLsb' 6 10 ++ BitVec.ofBool g ++ BitVec.ofBool e ++ r15.extractLsb' 0 4

/-- The first comparand is greater, under the signed or the unsigned reading (R113). -/
def greater (signed : Bool) (a b : Word) : Bool :=
  if signed then decide (a.toInt > b.toInt) else decide (a.toNat > b.toNat)

/-- What every compare does: both flags are written, nothing else but pc changes (R113). -/
def compare (signed : Bool) (a b : Word) (s : State) : Result :=
  .next (s.writeReg 15#4 (withFlags s.r15 (greater signed a b) (decide (a = b)))).advance

/-- FIB[2:0] (R112; FIB[4:3] are ignored, R84). -/
def condCode (fib : BitVec 5) : BitVec 3 := fib.extractLsb' 0 3

/-- The condition of a branch in terms of G and E, none where Table 1 has no entry (R112, R122). -/
def condition (code : BitVec 3) (g e : Bool) : Option Bool :=
  match code.toNat with
  | 0 => some e
  | 1 => some (!g && !e)
  | 2 => some g
  | 3 => some (g || e)
  | 4 => some (!(g && !e))
  | 5 => some (!e)
  | _ => none

/-- What both branches do: fault on a reserved condition, else go to `target` where it holds, else on (R120, R121). -/
def branch (fib : BitVec 5) (target : Word) (s : State) : Result :=
  match condition (condCode fib) s.flagG s.flagE with
  | none => raise .reservedCondition s
  | some true => .next (s.jumpTo target)
  | some false => .next s.advance

end Sys2Proof.Machine
end

