-- ==== Sys2Proof/Machine/ControlFlow.lean ====
section
/-! DEFINITION. Jumps, branches and compares (41_control_flow.md). Every relative target is measured from the
instruction itself (R118); the old registers are read before a link is written (10_state.md R26). -/

namespace Sys2Proof.Machine

/-- JMR (R110): the link is written only where the Save PC bit is set. -/
def execJmr (saves : Bool) (rd rs1 : RegIdx) (s : State) : Result :=
  let target := s.pc + s.operandA rs1
  if saves then writeAndJump rd (nextPc s) target (s.afterReading [rs1])
  else .next ((s.afterReading [rs1]).jumpTo target)

/-- JMI (R111): always links. -/
def execJmi (rd : RegIdx) (imm6 : BitVec 6) (s : State) : Result :=
  writeAndJump rd (nextPc s) (s.pc + sext6 imm6) s

/-- BRC (R120): absolute target. -/
def execBrc (fib : BitVec 5) (rd : RegIdx) (s : State) : Result :=
  branch fib (s.operandA rd) (s.afterReading [rd])

/-- BRR (R121): target relative to the branch itself. -/
def execBrr (fib : BitVec 5) (rd : RegIdx) (s : State) : Result :=
  branch fib (s.pc + s.operandA rd) (s.afterReading [rd])

/-- CMR (R114): unsigned, `x[rs1]` is the first comparand. -/
def execCmr (rs1 rd : RegIdx) (s : State) : Result :=
  compare false (s.operandA rs1) (s.operandB rd) (s.afterReading [rs1, rd])

/-- CMRS (R115). -/
def execCmrs (rs1 rd : RegIdx) (s : State) : Result :=
  compare true (s.operandA rs1) (s.operandB rd) (s.afterReading [rs1, rd])

/-- CMI (R116): the sign-extended immediate is the first comparand and is read unsigned. -/
def execCmi (imm5 : BitVec 5) (rd : RegIdx) (s : State) : Result :=
  compare false (sext5 imm5) (s.operandA rd) (s.afterReading [rd])

/-- CMIS (R117). -/
def execCmis (imm5 : BitVec 5) (rd : RegIdx) (s : State) : Result :=
  compare true (sext5 imm5) (s.operandA rd) (s.afterReading [rd])

end Sys2Proof.Machine
end

