-- ==== Sys2Proof/Machine/DataTransfer.lean ====
section
/-! DEFINITION. Data transfer (40_data_transfer.md): the only instructions that touch memory or IO. The address is the
whole content of one register. -/

namespace Sys2Proof.Machine

/-- LDR (R100). The read is made whatever `rd` is. -/
def execLdr (rd rs1 : RegIdx) (s : State) : Result :=
  match memRead s (s.operandA rs1) with
  | some v => writeAndAdvance rd v (s.afterReading [rs1])
  | none => raise (.unmappedAccess .load (s.operandA rs1)) s

/-- LDRio (R101): one IO read, whatever `rd` is; the word is the environment's (20_memory.md R55). -/
def execLdrIo (rd rs1 : RegIdx) (s : State) : Result :=
  let t := s.afterReading [rs1]
  writeAndAdvance rd (ioAnswer t) (ioRead t (s.operandA rs1))

/-- STR (R102): `rd` names the register holding the address. -/
def execStr (rd rs1 : RegIdx) (s : State) : Result :=
  match memWrite s (s.operandA rd) (s.operandB rs1) with
  | some t => .next (t.afterReading [rd, rs1]).advance
  | none => raise (.unmappedAccess .store (s.operandA rd)) s

/-- STRio (R103). -/
def execStrIo (rd rs1 : RegIdx) (s : State) : Result :=
  .next (ioWrite (s.afterReading [rd, rs1]) (s.operandA rd) (s.operandB rs1)).advance

end Sys2Proof.Machine
end

