-- ==== Sys2Proof/Machine/LogicMove.lean ====
section
/-! DEFINITION. AND, moves of immediates, register shifts, add and subtract (42_logic_move_shift_add.md). None of them
writes a flag unless R15 is its destination (R136). -/

namespace Sys2Proof.Machine

/-- ANR (R130). -/
def execAnr (rd rs1 rs2 : RegIdx) (s : State) : Result := binary (fun a b => a &&& b) rd rs1 rs2 s

/-- ANI (R131): the immediate is zero-extended. -/
def execAni (rd : RegIdx) (imm8 : BitVec 8) (s : State) : Result := unary (fun a => a &&& zext8 imm8) rd rd s

/-- ANIR (R132). -/
def execAnir (rd rs1 : RegIdx) (imm4 : BitVec 4) (s : State) : Result := unary (fun a => a &&& zext4 imm4) rd rs1 s

/-- MSI (R133): the old value of `rd` is not used. -/
def execMsi (rd : RegIdx) (imm8 : BitVec 8) (s : State) : Result := writeAndAdvance rd (sext8 imm8) s

/-- MSI-SHADOW (R146): the manual does not say what it does. -/
def execMsiShadow (_rd : RegIdx) (_imm8 : BitVec 8) (s : State) : Result := raise .undescribedShadow s

/-- MHI (R137): the low byte is kept. -/
def execMhi (rd : RegIdx) (imm8 : BitVec 8) (s : State) : Result := unary (fun a => withHighByte a imm8) rd rd s

/-- What SLR and SAR share: the amount is `x[rs2][4:0]` (R134). -/
def shiftRegister (arith : Bool) (rd rs1 rs2 : RegIdx) (s : State) : Result :=
  binary (fun a b => shift a (registerAmount s.platform.regShiftFormat (b.extractLsb' 0 5)) arith) rd rs1 rs2 s

/-- SLR (R138). -/
def execSlr (rd rs1 rs2 : RegIdx) (s : State) : Result := shiftRegister false rd rs1 rs2 s

/-- SAR (R139). -/
def execSar (rd rs1 rs2 : RegIdx) (s : State) : Result := shiftRegister true rd rs1 rs2 s

/-- ADR (R140): mod 2^16, no carry and no overflow anywhere (R136). -/
def execAdr (rd rs1 rs2 : RegIdx) (s : State) : Result := binary (fun a b => a + b) rd rs1 rs2 s

/-- SUR (R141): `rs1` is the minuend. -/
def execSur (rd rs1 rs2 : RegIdx) (s : State) : Result := binary (fun a b => a - b) rd rs1 rs2 s

/-- ADI (R142). -/
def execAdi (rd : RegIdx) (imm8 : BitVec 8) (s : State) : Result := unary (fun a => a + sext8 imm8) rd rd s

/-- ADIR (R143). -/
def execAdir (rd rs1 : RegIdx) (imm4 : BitVec 4) (s : State) : Result := unary (fun a => a + sext4 imm4) rd rs1 s

/-- SUI (R144). -/
def execSui (rd : RegIdx) (imm8 : BitVec 8) (s : State) : Result := unary (fun a => a - sext8 imm8) rd rd s

/-- SUIR (R145). -/
def execSuir (rd rs1 : RegIdx) (imm4 : BitVec 4) (s : State) : Result := unary (fun a => a - sext4 imm4) rd rs1 s

end Sys2Proof.Machine
end

