-- ==== Sys2Proof/Machine/MulDivShiftNot.lean ====
section
/-! DEFINITION. Multiply, divide, shift by an immediate, complement (43_mul_div_shi_not.md), and the reserved opcodes
(30_encoding.md R83). -/

namespace Sys2Proof.Machine

/-- What the multiplies share: the low half to `rd`, the high half to `rd + 1` unless only the low one is kept. -/
def multiply (signed lowOnly : Bool) (rd rs1 rs2 : RegIdx) (s : State) : Result :=
  let p := product signed (s.operandA rs1) (s.operandB rs2)
  writePairAndAdvance lowOnly rd (lowHalf p) (highHalf p) (s.afterReading [rs1, rs2])

/-- MUL (R160). -/
def execMul (rd rs1 rs2 : RegIdx) (s : State) : Result := multiply false false rd rs1 rs2 s

/-- MULS (R161). -/
def execMuls (rd rs1 rs2 : RegIdx) (s : State) : Result := multiply true false rd rs1 rs2 s

/-- MULL (R162): R15[12] makes no difference to the low half (R163). -/
def execMull (rd rs1 rs2 : RegIdx) (s : State) : Result := multiply false true rd rs1 rs2 s

/-- What a division by zero does (R168): a fault, or each register it would write receives a free value of its own. -/
def divideByZero (quotientOnly : Bool) (rd : RegIdx) (s : State) : Result :=
  match s.platform.divByZero with
  | .fault => raise .divideByZero s
  | .anyValue =>
    writePairAndAdvance quotientOnly rd (Config.draw s.draws) (Config.draw (s.draws + 1))
      { s with draws := s.draws + if quotientOnly then 1 else 2 }

/-- What the divides share: the quotient to `rd`, the remainder to `rd + 1` unless only the quotient is kept. -/
def divide (signed quotientOnly : Bool) (rd rs1 rs2 : RegIdx) (s : State) : Result :=
  let a := s.operandA rs1
  let b := s.operandB rs2
  let t := s.afterReading [rs1, rs2]
  if b = 0#16 then divideByZero quotientOnly rd t
  else writePairAndAdvance quotientOnly rd (quotient signed a b) (remainder signed a b) t

/-- DIV (R164). -/
def execDiv (rd rs1 rs2 : RegIdx) (s : State) : Result := divide false false rd rs1 rs2 s

/-- DIVS (R165). -/
def execDivs (rd rs1 rs2 : RegIdx) (s : State) : Result := divide true false rd rs1 rs2 s

/-- DIVQ (R166): R15[12], as it stands before the instruction, selects the signed quotient. -/
def execDivq (rd rs1 rs2 : RegIdx) (s : State) : Result := divide (shSigned s.r15) true rd rs1 rs2 s

/-- SHI (R170): the amount is sign-and-magnitude on every platform (R134). -/
def execShi (la : Bool) (rd : RegIdx) (shim : BitVec 5) (s : State) : Result :=
  unary (fun a => shift a (signMagnitudeAmount shim) la) rd rd s

/-- NTR (R171). -/
def execNtr (c : Bool) (rd rs1 : RegIdx) (s : State) : Result := unary (complement c) rd rs1 s

/-- NTD (R172). -/
def execNtd (c : Bool) (rd : RegIdx) (s : State) : Result := unary (complement c) rd rd s

/-- RESERVED0: opcode 0000 (30_encoding.md R83). -/
def execReserved0 (_low : BitVec 12) (s : State) : Result := raise .reservedOpcode s

/-- RESERVED1: opcode 0001 (30_encoding.md R83). -/
def execReserved1 (_low : BitVec 12) (s : State) : Result := raise .reservedOpcode s

end Sys2Proof.Machine
end

