-- ==== Sys2Proof/Machine/Dispatch.lean ====
section
/-! DEFINITION. The meaning of each instruction, one arm a row of spec/opcode_table.json. Which row a word is, R15 decides
in `decode`; `exec` runs the row it is given. -/

namespace Sys2Proof.Machine

def exec (i : Instr) (s : State) : Host.Outcome State Fault Refusal :=
  match i with
  | .ldr rd rs1 => Sys2Proof.Machine.execLdr rd rs1 s
  | .ldrIo rd rs1 => Sys2Proof.Machine.execLdrIo rd rs1 s
  | .str rd rs1 => Sys2Proof.Machine.execStr rd rs1 s
  | .strIo rd rs1 => Sys2Proof.Machine.execStrIo rd rs1 s
  | .jmr saves rd rs1 => Sys2Proof.Machine.execJmr saves rd rs1 s
  | .jmi rd imm6 => Sys2Proof.Machine.execJmi rd imm6 s
  | .anr rd rs1 rs2 => Sys2Proof.Machine.execAnr rd rs1 rs2 s
  | .ani rd imm8 => Sys2Proof.Machine.execAni rd imm8 s
  | .msi rd imm8 => Sys2Proof.Machine.execMsi rd imm8 s
  | .mhi rd imm8 => Sys2Proof.Machine.execMhi rd imm8 s
  | .slr rd rs1 rs2 => Sys2Proof.Machine.execSlr rd rs1 rs2 s
  | .sar rd rs1 rs2 => Sys2Proof.Machine.execSar rd rs1 rs2 s
  | .adr rd rs1 rs2 => Sys2Proof.Machine.execAdr rd rs1 rs2 s
  | .sur rd rs1 rs2 => Sys2Proof.Machine.execSur rd rs1 rs2 s
  | .adi rd imm8 => Sys2Proof.Machine.execAdi rd imm8 s
  | .sui rd imm8 => Sys2Proof.Machine.execSui rd imm8 s
  | .mul rd rs1 rs2 => Sys2Proof.Machine.execMul rd rs1 rs2 s
  | .div rd rs1 rs2 => Sys2Proof.Machine.execDiv rd rs1 rs2 s
  | .cmr rs1 rd => Sys2Proof.Machine.execCmr rs1 rd s
  | .cmi imm5 rd => Sys2Proof.Machine.execCmi imm5 rd s
  | .brc fib rd => Sys2Proof.Machine.execBrc fib rd s
  | .brr fib rd => Sys2Proof.Machine.execBrr fib rd s
  | .shi la rd shim => Sys2Proof.Machine.execShi la rd shim s
  | .ntr c rd rs1 => Sys2Proof.Machine.execNtr c rd rs1 s
  | .ntd c rd => Sys2Proof.Machine.execNtd c rd s
  | .anir rd rs1 imm4 => Sys2Proof.Machine.execAnir rd rs1 imm4 s
  | .msiShadow rd imm8 => Sys2Proof.Machine.execMsiShadow rd imm8 s
  | .adir rd rs1 imm4 => Sys2Proof.Machine.execAdir rd rs1 imm4 s
  | .suir rd rs1 imm4 => Sys2Proof.Machine.execSuir rd rs1 imm4 s
  | .muls rd rs1 rs2 => Sys2Proof.Machine.execMuls rd rs1 rs2 s
  | .mull rd rs1 rs2 => Sys2Proof.Machine.execMull rd rs1 rs2 s
  | .divs rd rs1 rs2 => Sys2Proof.Machine.execDivs rd rs1 rs2 s
  | .divq rd rs1 rs2 => Sys2Proof.Machine.execDivq rd rs1 rs2 s
  | .cmrs rs1 rd => Sys2Proof.Machine.execCmrs rs1 rd s
  | .cmis imm5 rd => Sys2Proof.Machine.execCmis imm5 rd s
  | .reserved0 low => Sys2Proof.Machine.execReserved0 low s
  | .reserved1 low => Sys2Proof.Machine.execReserved1 low s

end Sys2Proof.Machine
end

