-- ==== Sys2Proof/Machine/Launch.lean ====
section
/-! DEFINITION. How a program comes to run: the host's load, the launch state, and the launch premises of
70_reset_and_hazards.md R210, R215 and R221. -/

namespace Sys2Proof.Machine

/-- What the host places in memory before launch, program and data: (address, word) pairs, a later pair over an earlier. -/
abbrev Image := List (Word × Word)

/-- The host's load (R221): it defines words and asks no MEM_MAP, since it is no access of the core (a ROM is loaded
too). DESIGN CHOICE (safe, log 25). -/
def State.load (s : State) (image : Image) : State :=
  { s with mem := image.foldl (fun m p => Memory.writeWord m p.1 p.2) s.mem }

/-- The launch state (R210) for one platform, RESET_PC, RESET_R15, content of R1 to R14, and image: no IO event. -/
def State.launch (platform : Platform) (resetPc resetR15 : Word) (resetRegs : Vector Word 14) (image : Image) : State :=
  State.load
    { regs := resetRegs.push resetR15, pc := resetPc, mem := [], ioHistory := [], draws := 0, platform := platform }
    image

/-! The launch premises of R215. `R1toR14Unwritten` and `R15Arbitrary` say that nothing is known of these registers: a
claim has them by quantifying over `resetRegs` and `resetR15` of `State.launch` (log 1, log 2). `NoFaultRecorded` holds of
every state, since a fault leaves none (60_exceptions.md R191); `NoInterrupts` and `SingleMaster` hold of every step,
since the model has no other agent (log 14, log 15). -/

/-- `PcAtEntry`. -/
def State.pcAtEntry (s : State) (resetPc : Word) : Prop := s.pc = resetPc

/-- `R0Zero`. -/
def State.r0Zero (s : State) : Prop := s.readReg 0#4 = 0#16

/-- `ProgramLoaded`: the words of the program are in memory at their addresses, and MEM_MAP admits them for fetch. -/
def State.programLoaded (s : State) (program : Image) : Prop :=
  ∀ p ∈ program, Memory.readWord s.mem p.1 = p.2 ∧ mapAdmits s.platform.memMap .fetch p.1 = true

/-- `DataMapped`: every address the program loads from or stores to is admitted. -/
def State.dataMapped (s : State) (loads stores : List Word) : Prop :=
  (∀ a ∈ loads, mapAdmits s.platform.memMap .load a = true) ∧
  ∀ a ∈ stores, mapAdmits s.platform.memMap .store a = true

/-- What a claim about a program may assume of the state it starts from. -/
def State.launchPremises (s : State) (resetPc : Word) (program : Image) (loads stores : List Word) : Prop :=
  s.pcAtEntry resetPc ∧ s.r0Zero ∧ s.programLoaded program ∧ s.dataMapped loads stores ∧ s.ioHistory = []

end Sys2Proof.Machine
end

