-- ==== Sys2Proof/Machine/Step.lean ====
section
/-! DEFINITION. One step: fetch the word at pc, decode it under R15 as it stands, run it. The order of faults is that
of 60_exceptions.md R193. -/

namespace Sys2Proof.Machine

def step (s : State) : Host.Outcome State Fault Refusal :=
  match fetchWord s with
  | some w => if acceptsWord s w then exec (decode s.r15 w) s else raise .reservedOpcode s
  | none => raise (.unmappedAccess .fetch s.pc) s

/-- The state with the instruction `w` loaded where `step` fetches next; an instruction is one word (30_encoding.md R70),
so bits above `nbits` are 0 (log 25). -/
def State.withFetchWord (s : State) (nbits w : Nat) : State :=
  s.load [(s.pc, BitVec.ofNat 16 (w % 2 ^ nbits))]

end Sys2Proof.Machine
end

