-- ==== Sys2Proof/Safety.lean ====
section
/-! DEFINITION. The terms claims are stated in: what an instruction changes and keeps, the numbers behind words, the
condition table, which registers each instruction names (10_state.md R40), and when it faults (60_exceptions.md R191). -/

namespace Sys2Proof.Machine

/-! What a step changes and keeps. -/

/-- Register `rd` takes `v`, a write of R0 is discarded, and every other register keeps its value. -/
def WritesReg (rd : RegIdx) (v : Word) (s t : State) : Prop :=
  ∀ r, t.readReg r = if r = rd ∧ r ≠ 0#4 then v else s.readReg r

/-- `rd` takes `v`, register `(rd + 1) mod 16` takes `w`, a write of R0 is discarded, the rest keep their values. -/
def WritesRegPair (rd : RegIdx) (v w : Word) (s t : State) : Prop :=
  ∀ r, t.readReg r =
    if r = 0#4 then 0#16 else if r = rd then v else if r = rd + 1#4 then w else s.readReg r

/-- Every register keeps its value. -/
def KeepsRegs (s t : State) : Prop := ∀ r, t.readReg r = s.readReg r

/-- Every byte of memory keeps its value. -/
def KeepsMemory (s t : State) : Prop := ∀ k, Memory.byteAt t.mem k = Memory.byteAt s.mem k

/-- Memory, the IO history and the platform are kept, and so is the count of free values but for a volatile read of R15
among `reads`, the registers read as operands (log 7). -/
def KeepsRest (reads : List RegIdx) (s t : State) : Prop :=
  KeepsMemory s t ∧ t.ioHistory = s.ioHistory ∧ t.draws = (s.afterReading reads).draws ∧ t.platform = s.platform

/-- G and E are replaced in R15; its other bits, and every other register, are kept (41_control_flow.md R113). -/
def WritesFlags (g e : Bool) (s t : State) : Prop :=
  (∀ r, r ≠ 15#4 → t.readReg r = s.readReg r) ∧
  ∀ b, (t.readReg 15#4).getLsbD b =
    if b = 5 then g else if b = 4 then e else (s.readReg 15#4).getLsbD b

/-! Numbers behind words. -/

/-- The reading of a word a compare, a product or a quotient takes (00_scope.md R9). -/
def reading (signed : Bool) (v : Word) : Int := if signed then v.toInt else (v.toNat : Int)

/-- 42_logic_move_shift_add.md R135 in integers; Lean's `/` on `Int` by a positive number rounds toward minus infinity. -/
def shiftLaw (leftward : Bool) (m : Nat) (arith : Bool) (v : Word) : Word :=
  if leftward then BitVec.ofNat 16 (v.toNat * 2 ^ m)
  else if arith then BitVec.ofInt 16 (v.toInt / (2 ^ m : Nat))
  else BitVec.ofNat 16 (v.toNat / 2 ^ m)

/-- The relation a condition code names between two comparands (R92, R112). -/
def relationNamed (code : Nat) (a b : Int) : Prop :=
  (code = 0 ∧ a = b) ∨ (code = 1 ∧ a < b) ∨ (code = 2 ∧ a > b) ∨
  (code = 3 ∧ a ≥ b) ∨ (code = 4 ∧ a ≤ b) ∨ (code = 5 ∧ a ≠ b)

/-- The condition table of R112 in G and E. -/
def conditionHolds (code : Nat) (g e : Bool) : Prop :=
  (code = 0 ∧ e = true) ∨ (code = 1 ∧ g = false ∧ e = false) ∨ (code = 2 ∧ g = true) ∨
  (code = 3 ∧ (g = true ∨ e = true)) ∨ (code = 4 ∧ ¬ (g = true ∧ e = false)) ∨ (code = 5 ∧ e = false)

/-! The opcode map (30_encoding.md R80, R85). -/

/-- Under these shadow bits, every word that matches the row is the instruction `f` reads from its fields. -/
def DecodesAs (mask pattern : Word) (shadow : Word → Bool) (f : Word → Instr) : Prop :=
  ∀ r15 w, shadow r15 = true → w &&& mask = pattern → decode r15 w = f w

end Sys2Proof.Machine

namespace Sys2Proof

/-! Which registers an instruction names (10_state.md R40). -/

/-- The registers an instruction may change; a compare changes R15. -/
def Instr.destinations : Instr → List RegIdx
  | .ldr rd _ => [rd]
  | .ldrIo rd _ => [rd]
  | .str _ _ => []
  | .strIo _ _ => []
  | .jmr saves rd _ => if saves then [rd] else []
  | .jmi rd _ => [rd]
  | .anr rd _ _ => [rd]
  | .ani rd _ => [rd]
  | .msi rd _ => [rd]
  | .mhi rd _ => [rd]
  | .slr rd _ _ => [rd]
  | .sar rd _ _ => [rd]
  | .adr rd _ _ => [rd]
  | .sur rd _ _ => [rd]
  | .adi rd _ => [rd]
  | .sui rd _ => [rd]
  | .mul rd _ _ => [rd, rd + 1#4]
  | .div rd _ _ => [rd, rd + 1#4]
  | .cmr _ _ => [15#4]
  | .cmi _ _ => [15#4]
  | .brc _ _ => []
  | .brr _ _ => []
  | .shi _ rd _ => [rd]
  | .ntr _ rd _ => [rd]
  | .ntd _ rd => [rd]
  | .anir rd _ _ => [rd]
  | .msiShadow _ _ => []
  | .adir rd _ _ => [rd]
  | .suir rd _ _ => [rd]
  | .muls rd _ _ => [rd, rd + 1#4]
  | .mull rd _ _ => [rd]
  | .divs rd _ _ => [rd, rd + 1#4]
  | .divq rd _ _ => [rd]
  | .cmrs _ _ => [15#4]
  | .cmis _ _ => [15#4]
  | .reserved0 _ => []
  | .reserved1 _ => []

/-- The registers an instruction's effect depends on. R15 stands where flags are read or kept, and for DIVQ, whose sign is
R15[12]; the free values of a volatile R15 depend on State.draws beside it (log 12). -/
def Instr.sources : Instr → List RegIdx
  | .ldr _ rs1 => [rs1]
  | .ldrIo _ rs1 => [rs1]
  | .str rd rs1 => [rd, rs1]
  | .strIo rd rs1 => [rd, rs1]
  | .jmr _ _ rs1 => [rs1]
  | .jmi _ _ => []
  | .anr _ rs1 rs2 => [rs1, rs2]
  | .ani rd _ => [rd]
  | .msi _ _ => []
  | .mhi rd _ => [rd]
  | .slr _ rs1 rs2 => [rs1, rs2]
  | .sar _ rs1 rs2 => [rs1, rs2]
  | .adr _ rs1 rs2 => [rs1, rs2]
  | .sur _ rs1 rs2 => [rs1, rs2]
  | .adi rd _ => [rd]
  | .sui rd _ => [rd]
  | .mul _ rs1 rs2 => [rs1, rs2]
  | .div _ rs1 rs2 => [rs1, rs2]
  | .cmr rs1 rd => [rs1, rd, 15#4]
  | .cmi _ rd => [rd, 15#4]
  | .brc _ rd => [rd, 15#4]
  | .brr _ rd => [rd, 15#4]
  | .shi _ rd _ => [rd]
  | .ntr _ _ rs1 => [rs1]
  | .ntd _ rd => [rd]
  | .anir _ rs1 _ => [rs1]
  | .msiShadow _ _ => []
  | .adir _ rs1 _ => [rs1]
  | .suir _ rs1 _ => [rs1]
  | .muls _ rs1 rs2 => [rs1, rs2]
  | .mull _ rs1 rs2 => [rs1, rs2]
  | .divs _ rs1 rs2 => [rs1, rs2]
  | .divq _ rs1 rs2 => [rs1, rs2, 15#4]
  | .cmrs rs1 rd => [rs1, rd, 15#4]
  | .cmis _ rd => [rd, 15#4]
  | .reserved0 _ => []
  | .reserved1 _ => []

/-- The instruction is one of the four compares, which write G and E and no whole register (R40). -/
def Instr.isCompare : Instr → Bool
  | .cmr _ _ => true
  | .cmi _ _ => true
  | .cmrs _ _ => true
  | .cmis _ _ => true
  | _ => false

/-- The instruction is neither a jump nor a branch (R28). -/
def Instr.fallsThrough : Instr → Bool
  | .jmr _ _ _ => false
  | .jmi _ _ => false
  | .brc _ _ => false
  | .brr _ _ => false
  | _ => true

end Sys2Proof

namespace Sys2Proof.Machine

/-! When an instruction faults (60_exceptions.md R191). -/

/-- The fault of a division whose divisor is `x[rs2]` (43_mul_div_shi_not.md R168). -/
def divideFault (rs2 : RegIdx) (s : State) : Option Fault :=
  if s.operandB rs2 = 0#16 ∧ s.platform.divByZero = .fault then some (.divideByZero s.pc) else none

/-- The fault of a branch (R84). -/
def branchFault (fib : BitVec 5) (s : State) : Option Fault :=
  if fib.toNat % 8 < 6 then none else some (.reservedCondition s.pc)

/-- The table of R191: the fault an instruction raises in a state, if it raises one. The optional fault of a write that a
volatile R15 refuses (R34) stands apart, since it depends on the value written. -/
def faultIn (s : State) : Instr → Option Fault
  | .ldr _ rs1 =>
    if mapAdmits s.platform.memMap .load (s.operandA rs1) then none
    else some (.unmappedAccess .load (s.operandA rs1) s.pc)
  | .str rd _ =>
    if mapAdmits s.platform.memMap .store (s.operandA rd) then none
    else some (.unmappedAccess .store (s.operandA rd) s.pc)
  | .brc fib _ => branchFault fib s
  | .brr fib _ => branchFault fib s
  | .div _ _ rs2 => divideFault rs2 s
  | .divs _ _ rs2 => divideFault rs2 s
  | .divq _ _ rs2 => divideFault rs2 s
  | .msiShadow _ _ => some (.undescribedShadow s.pc)
  | .reserved0 _ => some (.reservedOpcode s.pc)
  | .reserved1 _ => some (.reservedOpcode s.pc)
  | _ => none

/-- The fault the next step raises, in the order of R193: fetch, then decode and execution. -/
def State.faultNext (s : State) : Option Fault :=
  if mapAdmits s.platform.memMap .fetch s.pc then
    if acceptsWord s (Memory.readWord s.mem s.pc) then faultIn s (decode s.r15 (Memory.readWord s.mem s.pc))
    else some (.reservedOpcode s.pc)
  else some (.unmappedAccess .fetch s.pc s.pc)

/-! The end of a run (70_reset_and_hazards.md R216; log 29). The machine itself does not stop there. -/

/-- The run has ended: pc names the word `JMI r0 0`. R216 asks the word alone; that MEM_MAP admits its fetch is asked too,
because a run that reaches a fault has gone wrong (R216) and a faulted state is never final (60_exceptions.md R191).
DEDUCED (safe, log 29): an address that is not admitted for fetch names no word a run can end at. -/
def State.runEnded (s : State) : Prop :=
  mapAdmits s.platform.memMap .fetch s.pc = true ∧ Memory.readWord s.mem s.pc = 0x2C00#16

/-- The state `n` steps on, if none of them faults. -/
def State.after (s : State) : Nat → Option State
  | 0 => some s
  | n + 1 =>
    match step s with
    | .next t => t.after n
    | .fault _ => none
    | .refused _ => none

/-- `t` is the final state of the run from `s`: the state on first reaching the end (R216). A run that faults before has
none. -/
def State.finalState (s t : State) : Prop :=
  ∃ n, s.after n = some t ∧ t.runEnded ∧ ∀ m < n, ∀ u, s.after m = some u → ¬ u.runEnded

end Sys2Proof.Machine
end

