-- ==== Sys2Proof/Certificates/Slice0/Obligations.lean ====
section
/-! DEFINITION. What is claimed of the model. Every statement is about every state, whether or not a run reaches it,
unless its hypotheses say otherwise; R15, its shadow bits and flags, and the platform are whatever the state holds.
A "decision" named in a docstring is the spec's own (92_eei_decisions.md), not the manual's.

`x[i]` read by an instruction is `s.operandA i` for the first register it reads and `s.operandB i` for the second: the
register's content, but for the undescribed bits of R15 on a platform where they are volatile
(`Obligations.OperandsAreRegisterContents`). `s.acceptsWrite rd v = true` holds of every write but one of a 1 to R15[9:8]
on such a platform (`Obligations.RefusedWritesFault`, `Obligations.EachInstructionRefusesByItsResult`). -/

open Sys2Proof Sys2Proof.Machine

/-! ## Encoding -/

/-- Words the spec writes out (95_test_vectors.md 1.1) are the instructions it says they are. -/
def Obligations.SpecWordsDecode : Prop :=
  decode 0x0000#16 0x2023#16 = .ldr 3#4 2#4 ∧ decode 0x0000#16 0x2223#16 = .ldrIo 3#4 2#4 ∧
  decode 0x0000#16 0x2423#16 = .str 3#4 2#4 ∧ decode 0x0000#16 0x2623#16 = .strIo 3#4 2#4 ∧
  decode 0x0000#16 0x2A23#16 = .jmr true 3#4 2#4 ∧ decode 0x0000#16 0x2E03#16 = .jmi 3#4 0b100000#6 ∧
  decode 0x0000#16 0xA325#16 = .sur 5#4 2#4 3#4 ∧ decode 0x0000#16 0xB965#16 = .adi 5#4 0x96#8 ∧
  decode 0x8000#16 0xB215#16 = .adir 5#4 1#4 2#4 ∧ decode 0x1000#16 0xD235#16 = .muls 5#4 3#4 2#4 ∧
  decode 0x0800#16 0xE235#16 = .divq 5#4 3#4 2#4 ∧ decode 0x0400#16 0xF3E2#16 = .cmis 0b11110#5 2#4 ∧
  decode 0x0000#16 0xF412#16 = .brc 0b00001#5 2#4 ∧ decode 0x0000#16 0xFB35#16 = .shi true 5#4 0b10011#5 ∧
  decode 0x0000#16 0xFD25#16 = .ntr true 5#4 2#4 ∧ decode 0x0000#16 0xFF05#16 = .ntd true 5#4

/-- R80, R81: no bit of an encoding is dropped. Every instruction, at every operand value, is read back from its word
under every R15 whose shadow bits select it. -/
def Obligations.DecodeOfEncodeIsTheInstruction : Prop :=
  ∀ (r15 : Word) (i : Instr), i.selectedBy r15 = true → decode r15 (encode i) = i

/-- R80, R85: each word has one meaning. Encoding what a word decodes to gives the word back, but for the bits no field
covers, which become 0. -/
def Obligations.EncodeOfDecodeIsTheWord : Prop :=
  ∀ r15 w : Word, encode (decode r15 w) = w &&& ~~~ fieldlessBits w ∧ (decode r15 w).selectedBy r15 = true

/-- R85 (decision D6): the bits no field covers do not select an instruction, nor has the rd field of JMR with s = 0 an
effect. Where IGNORED_BITS is ignore every word may be decoded; where it is must_be_zero, the words with no such bit. -/
def Obligations.BitsNoFieldCoversHaveNoEffect : Prop :=
  (∀ r15 w w' : Word, w &&& ~~~ fieldlessBits w = w' &&& ~~~ fieldlessBits w' → decode r15 w = decode r15 w') ∧
  (∀ (rd rd' rs1 : RegIdx) (s : State), exec (.jmr false rd rs1) s = exec (.jmr false rd' rs1) s) ∧
  ∀ (s : State) (w : Word),
    (s.platform.ignoredBits = .ignore → acceptsWord s w = true) ∧
    (s.platform.ignoredBits = .mustBeZero → (acceptsWord s w = true ↔ w = w &&& ~~~ fieldlessBits w)) ∧
    ∀ i : Instr, acceptsWord s (encode i) = true

/-- R82, R212: outside the word, decoding reads R15[15:10] only; and a word of an opcode that has no shadow decodes alike
under every R15. -/
def Obligations.DecodingReadsOnlyTheShadowBits : Prop :=
  (∀ r15 r15' w : Word, r15.extractLsb' 10 6 = r15'.extractLsb' 10 6 → decode r15 w = decode r15' w) ∧
  ∀ r15 r15' w : Word,
    w.extractLsb' 12 4 ∉ [4#4, 5#4, 11#4, 12#4, 13#4, 14#4] → w.extractLsb' 10 6 ≠ 0b111100#6 →
    decode r15 w = decode r15' w

/-- R83 (decision D7): exactly the words below 0x2000 are of the reserved opcodes, and running one is the fault
ReservedOpcode whatever the state. -/
def Obligations.ReservedOpcodesFault : Prop :=
  (∀ r15 w : Word, w.toNat < 0x2000 ↔
    ∃ low : BitVec 12, decode r15 w = .reserved0 low ∨ decode r15 w = .reserved1 low) ∧
  ∀ (low : BitVec 12) (s : State),
    exec (.reserved0 low) s = .fault (.reservedOpcode s.pc) ∧ exec (.reserved1 low) s = .fault (.reservedOpcode s.pc)

/-! ## The step -/

/-- R26, R70, R81: where MEM_MAP admits the fetch and the word may be decoded, a step is the meaning of the instruction
that the word at pc is under R15 as it stands, with nothing around it. The model's choice of a fault over a stuck core
where MEM_MAP does not admit the fetch (decision D24, log 9, log 22) is UnmappedAccess; a word IGNORED_BITS forbids is
ReservedOpcode (decision D6, log 11). -/
def Obligations.StepRunsTheDecodedInstruction : Prop :=
  ∀ s : State,
    (mapAdmits s.platform.memMap .fetch s.pc = true →
      (acceptsWord s (Memory.readWord s.mem s.pc) = true →
        step s = exec (decode s.r15 (Memory.readWord s.mem s.pc)) s) ∧
      (acceptsWord s (Memory.readWord s.mem s.pc) = false → step s = .fault (.reservedOpcode s.pc))) ∧
    (mapAdmits s.platform.memMap .fetch s.pc = false → step s = .fault (.unmappedAccess .fetch s.pc s.pc))

/-- R51, R65, R217: a word that STR puts right after itself is the instruction the next step runs. -/
def Obligations.StoredWordIsTheNextInstruction : Prop :=
  ∀ (rd rs1 : RegIdx) (s : State), s.operandA rd = s.pc + 1#16 →
    mapAdmits s.platform.memMap .store (s.pc + 1#16) = true →
    mapAdmits s.platform.memMap .fetch (s.pc + 1#16) = true →
    acceptsWord s (s.operandB rs1) = true →
    ∃ t, exec (.str rd rs1) s = .next t ∧ step t = exec (decode s.r15 (s.operandB rs1)) t

/-- R191, R193 (decisions D6 to D9, D18 to D20, D24): a step raises a fault of the table of R191 exactly where the table
and the order of R193 say; everywhere else it answers a next state, or raises the optional fault of R34, which it does
only where R15 is volatile and the instruction writes R15 whole; and it never refuses. -/
def Obligations.StepFaultsExactlyWhereNamed : Prop :=
  ∀ s : State,
    (∀ f, f ≠ .undescribedShadowWrite s.pc → (step s = .fault f ↔ s.faultNext = some f)) ∧
    (s.faultNext = none → (∃ t, step s = .next t) ∨ step s = .fault (.undescribedShadowWrite s.pc)) ∧
    (∀ t, step s = .next t → s.faultNext = none) ∧
    (step s = .fault (.undescribedShadowWrite s.pc) →
      s.faultNext = none ∧ s.platform.r15Undoc = .volatile ∧
      15#4 ∈ (decode s.r15 (Memory.readWord s.mem s.pc)).destinations ∧
      (decode s.r15 (Memory.readWord s.mem s.pc)).isCompare = false) ∧
    ∀ r, step s ≠ .refused r

/-- R216 (decision D22): a state whose run has ended steps to itself, `JMI r0 0` changes nothing and never leaves; a run
that faults at its next step has not ended (R191; log 29); and the final state of a run is one, however far it is run. -/
def Obligations.EndOfRunStays : Prop :=
  (∀ s : State, s.runEnded → step s = .next s) ∧
  (∀ (s : State) (f : Fault), step s = .fault f → ¬ s.runEnded) ∧
  ∀ s t u : State, s.finalState t → s.finalState u → t = u

/-- R212: `MHI r15 0` (0x600F), whatever R15 holds, clears the shadow bits and keeps G and E, and after it every word has
its base meaning; where R15 is storage it keeps the whole of R15[7:0] (decision D12). -/
def Obligations.BootInstructionClearsTheShadows : Prop :=
  ∀ s : State, Memory.readWord s.mem s.pc = 0x600F#16 → mapAdmits s.platform.memMap .fetch s.pc = true →
    ∃ t, step s = .next t ∧ t.r15 &&& 0xFF30#16 = s.r15 &&& 0x0030#16 ∧
      (s.platform.r15Undoc = .storage → t.r15 = s.r15 &&& 0x00FF#16) ∧
      (∀ r, r ≠ 15#4 → t.readReg r = s.readReg r) ∧ t.pc = s.pc + 1#16 ∧ KeepsRest [15#4] s t ∧
      ∀ w, decode t.r15 w = decode 0x0000#16 w

/-! ## Operands and R15 -/

/-- R34 (decision D12): what an operand is. It is the register's content on every platform but for R15 where it is
volatile; there bits 15:10, G and E are read as they are, and the other bits are those of a free value, one for each
operand (log 12). -/
def Obligations.OperandsAreRegisterContents : Prop :=
  ∀ (s : State) (i : RegIdx),
    (i ≠ 15#4 ∨ s.platform.r15Undoc = .storage → s.operandA i = s.readReg i ∧ s.operandB i = s.readReg i) ∧
    (s.platform.r15Undoc = .volatile → ∀ b,
      (s.operandA 15#4).getLsbD b =
        (if 10 ≤ b ∨ b = 5 ∨ b = 4 then s.r15.getLsbD b else (Config.undescribedR15 s.draws 0).getLsbD b) ∧
      (s.operandB 15#4).getLsbD b =
        (if 10 ≤ b ∨ b = 5 ∨ b = 4 then s.r15.getLsbD b else (Config.undescribedR15 s.draws 1).getLsbD b)) ∧
    ∀ is, (s.afterReading is).draws =
      if 15#4 ∈ is ∧ s.platform.r15Undoc = .volatile then s.draws + 1 else s.draws

/-- R34 (decision D12; a fault by R191): where R15 is storage every write is accepted; where it is volatile a write of a 1
to R15[9:8] is refused, for instance by MSI and MHI exactly where their immediate puts it there, and after an instruction
that wrote R15 whole those bits are 0. -/
def Obligations.RefusedWritesFault : Prop :=
  (∀ (s : State) (i : RegIdx) (v : Word), i ≠ 15#4 ∨ s.platform.r15Undoc = .storage → s.acceptsWrite i v = true) ∧
  (∀ (s : State), s.platform.r15Undoc = .volatile →
    (∀ v, s.acceptsWrite 15#4 v = true ↔ v.extractLsb' 8 2 = 0#2) ∧
    (∀ imm8 : BitVec 8,
      (exec (.msi 15#4 imm8) s = .fault (.undescribedShadowWrite s.pc) ↔ imm8.getLsbD 7 = true) ∧
      (exec (.mhi 15#4 imm8) s = .fault (.undescribedShadowWrite s.pc) ↔ imm8.extractLsb' 0 2 ≠ 0#2)) ∧
    ∀ (i : Instr) (t : State), exec i s = .next t → 15#4 ∈ i.destinations → i.isCompare = false →
      t.r15.extractLsb' 8 2 = 0#2)

/-- R34 (decision D12): where R15 is volatile, each instruction that writes R15 whole is refused exactly where the result
it has for R15 puts a 1 in bits 9:8. The results are those of the statements of the single instructions; one that another
fault stops (R193) is refused only where it would complete. -/
def Obligations.EachInstructionRefusesByItsResult : Prop :=
  ∀ (s : State) (rs1 rs2 : RegIdx) (imm4 : BitVec 4) (imm5 : BitVec 5) (imm6 : BitVec 6) (imm8 : BitVec 8) (c : Bool),
    s.platform.r15Undoc = .volatile →
    let a := s.operandA rs1
    let b := s.operandB rs2
    let d := s.operandA 15#4
    let amount := registerAmount s.platform.regShiftFormat (b.extractLsb' 0 5)
    let n := (s.afterReading [rs1, rs2]).draws
    let refuses := fun (i : Instr) (v : Word) =>
      exec i s = .fault (.undescribedShadowWrite s.pc) ↔ v.extractLsb' 8 2 ≠ 0#2
    refuses (.jmr true 15#4 rs1) (s.pc + 1#16) ∧ refuses (.jmi 15#4 imm6) (s.pc + 1#16) ∧
    refuses (.anr 15#4 rs1 rs2) (a &&& b) ∧ refuses (.ani 15#4 imm8) (d &&& zext8 imm8) ∧
    refuses (.anir 15#4 rs1 imm4) (a &&& zext4 imm4) ∧ refuses (.msi 15#4 imm8) (sext8 imm8) ∧
    refuses (.mhi 15#4 imm8) (withHighByte d imm8) ∧
    refuses (.slr 15#4 rs1 rs2) (shift a amount false) ∧ refuses (.sar 15#4 rs1 rs2) (shift a amount true) ∧
    refuses (.adr 15#4 rs1 rs2) (a + b) ∧ refuses (.sur 15#4 rs1 rs2) (a - b) ∧
    refuses (.adi 15#4 imm8) (d + sext8 imm8) ∧ refuses (.sui 15#4 imm8) (d - sext8 imm8) ∧
    refuses (.adir 15#4 rs1 imm4) (a + sext4 imm4) ∧ refuses (.suir 15#4 rs1 imm4) (a - sext4 imm4) ∧
    refuses (.mul 15#4 rs1 rs2) (lowHalf (product false a b)) ∧
    refuses (.mul 14#4 rs1 rs2) (highHalf (product false a b)) ∧
    refuses (.muls 15#4 rs1 rs2) (lowHalf (product true a b)) ∧
    refuses (.muls 14#4 rs1 rs2) (highHalf (product true a b)) ∧
    refuses (.mull 15#4 rs1 rs2) (lowHalf (product false a b)) ∧
    refuses (.shi c 15#4 imm5) (shift d (signMagnitudeAmount imm5) c) ∧
    refuses (.ntr c 15#4 rs1) (complement c a) ∧ refuses (.ntd c 15#4) (complement c d) ∧
    refuses (.ldrIo 15#4 rs1) (ioAnswer (s.afterReading [rs1])) ∧
    (mapAdmits s.platform.memMap .load a = true → refuses (.ldr 15#4 rs1) (Memory.readWord s.mem a)) ∧
    (b ≠ 0#16 →
      refuses (.div 15#4 rs1 rs2) (quotient false a b) ∧ refuses (.div 14#4 rs1 rs2) (remainder false a b) ∧
      refuses (.divs 15#4 rs1 rs2) (quotient true a b) ∧ refuses (.divs 14#4 rs1 rs2) (remainder true a b) ∧
      refuses (.divq 15#4 rs1 rs2) (quotient (s.r15.getLsbD 12) a b)) ∧
    (b = 0#16 → s.platform.divByZero = .anyValue →
      refuses (.div 15#4 rs1 rs2) (Config.draw n) ∧ refuses (.div 14#4 rs1 rs2) (Config.draw (n + 1)) ∧
      refuses (.divs 15#4 rs1 rs2) (Config.draw n) ∧ refuses (.divs 14#4 rs1 rs2) (Config.draw (n + 1)) ∧
      refuses (.divq 15#4 rs1 rs2) (Config.draw n))

/-- R34 (decision D12): where R15 is volatile, no step sets R15[9] or R15[8] (and none makes it storage). -/
def Obligations.StepKeepsUndescribedShadowsClear : Prop :=
  ∀ s t : State, s.platform.r15Undoc = .volatile → s.r15.extractLsb' 8 2 = 0#2 → step s = .next t →
    t.platform.r15Undoc = .volatile ∧ t.r15.extractLsb' 8 2 = 0#2

/-! ## Data transfer -/

/-- R100: LDR, its words and its effect, at every address MEM_MAP admits for loading. -/
def Obligations.LdrLoadsAWord : Prop :=
  DecodesAs 0xFE00#16 0x2000#16 (fun _ => true) (fun w => .ldr (w.extractLsb' 0 4) (w.extractLsb' 4 4)) ∧
  ∀ (rd rs1 : RegIdx) (s : State), mapAdmits s.platform.memMap .load (s.operandA rs1) = true →
    s.acceptsWrite rd (Memory.readWord s.mem (s.operandA rs1)) = true →
    ∃ t, exec (.ldr rd rs1) s = .next t ∧ WritesReg rd (Memory.readWord s.mem (s.operandA rs1)) s t ∧
      t.pc = s.pc + 1#16 ∧ KeepsRest [rs1] s t

/-- R101: LDRio. The word is the one the event records; exactly one event is made, whatever rd is. -/
def Obligations.LdrIoReadsADevice : Prop :=
  DecodesAs 0xFE00#16 0x2200#16 (fun _ => true) (fun w => .ldrIo (w.extractLsb' 0 4) (w.extractLsb' 4 4)) ∧
  ∀ (rd rs1 : RegIdx) (s : State), s.acceptsWrite rd (ioAnswer (s.afterReading [rs1])) = true →
    ∃ t v, exec (.ldrIo rd rs1) s = .next t ∧ WritesReg rd v s t ∧
      t.ioHistory = s.ioHistory ++ [.read (s.operandA rs1) v] ∧ t.pc = s.pc + 1#16 ∧ KeepsMemory s t ∧
      t.platform = s.platform

/-- R55 (decision D3), in the model's form (log 6, log 7): the answers of two IO reads are two free values, also of one
address and with writes between them, so nothing follows for the second from the first. Where R15 is volatile each read
of it draws too, and the answers are still two. -/
def Obligations.IoReadsAreSeparateDraws : Prop :=
  ∀ (rd rd' rs1 rs1' rw rv : RegIdx) (s t u v : State),
    exec (.ldrIo rd rs1) s = .next t → exec (.strIo rw rv) t = .next u → exec (.ldrIo rd' rs1') u = .next v →
    ∃ m n, s.draws ≤ m ∧ m < n ∧ n < v.draws ∧
      (s.platform.r15Undoc = .storage → m = s.draws ∧ n = s.draws + 1) ∧
      v.ioHistory = s.ioHistory ++ [.read (s.operandA rs1) (Config.draw m),
        .write (t.operandA rw) (t.operandB rv), .read (u.operandA rs1') (Config.draw n)]

/-- R102: STR, at every address MEM_MAP admits for storing. The word is stored at x[rd]; every other word, every byte
outside the two of that word, and every register are kept. -/
def Obligations.StrStoresAWord : Prop :=
  DecodesAs 0xFE00#16 0x2400#16 (fun _ => true) (fun w => .str (w.extractLsb' 0 4) (w.extractLsb' 4 4)) ∧
  ∀ (rd rs1 : RegIdx) (s : State), mapAdmits s.platform.memMap .store (s.operandA rd) = true →
    ∃ t, exec (.str rd rs1) s = .next t ∧
      (∀ a, Memory.readWord t.mem a = if a = s.operandA rd then s.operandB rs1 else Memory.readWord s.mem a) ∧
      (∀ k, k ≠ lowPlace (s.operandA rd) → k ≠ highPlace (s.operandA rd) →
        Memory.byteAt t.mem k = Memory.byteAt s.mem k) ∧
      KeepsRegs s t ∧ t.pc = s.pc + 1#16 ∧ t.ioHistory = s.ioHistory ∧
      t.draws = (s.afterReading [rd, rs1]).draws ∧ t.platform = s.platform

/-- R52, R53 (decision D24): a load or a store at an address MEM_MAP does not admit is the fault UnmappedAccess, which
names the address and the pc; whether MEM_MAP admits it is whether a region that permits the access holds the address,
both ends included. -/
def Obligations.UnadmittedTransfersFault : Prop :=
  (∀ (rd rs1 : RegIdx) (s : State),
    (mapAdmits s.platform.memMap .load (s.operandA rs1) = false →
      exec (.ldr rd rs1) s = .fault (.unmappedAccess .load (s.operandA rs1) s.pc)) ∧
    (mapAdmits s.platform.memMap .store (s.operandA rd) = false →
      exec (.str rd rs1) s = .fault (.unmappedAccess .store (s.operandA rd) s.pc))) ∧
  ∀ (map : MemMap) (a : Word),
    (mapAdmits map .fetch a = true ↔ ∃ r ∈ map, r.first.toNat ≤ a.toNat ∧ a.toNat ≤ r.last.toNat ∧ r.fetch = true) ∧
    (mapAdmits map .load a = true ↔ ∃ r ∈ map, r.first.toNat ≤ a.toNat ∧ a.toNat ≤ r.last.toNat ∧ r.load = true) ∧
    (mapAdmits map .store a = true ↔ ∃ r ∈ map, r.first.toNat ≤ a.toNat ∧ a.toNat ≤ r.last.toNat ∧ r.store = true)

/-- R103: STRio. One event, in program order; no register and no memory word changes. -/
def Obligations.StrIoWritesADevice : Prop :=
  DecodesAs 0xFE00#16 0x2600#16 (fun _ => true) (fun w => .strIo (w.extractLsb' 0 4) (w.extractLsb' 4 4)) ∧
  ∀ (rd rs1 : RegIdx) (s : State),
    ∃ t, exec (.strIo rd rs1) s = .next t ∧
      t.ioHistory = s.ioHistory ++ [.write (s.operandA rd) (s.operandB rs1)] ∧ KeepsRegs s t ∧ t.pc = s.pc + 1#16 ∧
      KeepsMemory s t ∧ t.draws = (s.afterReading [rd, rs1]).draws ∧ t.platform = s.platform

/-- R62 (decision D21): a load that follows a store to the same address gets the stored word. -/
def Obligations.LoadGetsTheLatestStore : Prop :=
  ∀ (ra rs : RegIdx) (s : State), mapAdmits s.platform.memMap .store (s.operandA ra) = true →
    ∃ t, exec (.str ra rs) s = .next t ∧
      ∀ rd rb : RegIdx, t.operandA rb = s.operandA ra → mapAdmits s.platform.memMap .load (s.operandA ra) = true →
        s.acceptsWrite rd (s.operandB rs) = true →
        ∃ u, exec (.ldr rd rb) t = .next u ∧ WritesReg rd (s.operandB rs) t u

/-! ## Control flow -/

/-- R110: JMR, both settings of the Save PC bit. -/
def Obligations.JmrJumpsRelative : Prop :=
  (DecodesAs 0xFC00#16 0x2800#16 (fun _ => true)
    (fun w => .jmr (w.getLsbD 9) (w.extractLsb' 0 4) (w.extractLsb' 4 4))) ∧
  ∀ (rd rs1 : RegIdx) (s : State),
    (∃ t, exec (.jmr false rd rs1) s = .next t ∧ KeepsRegs s t ∧
      t.pc = BitVec.ofNat 16 (s.pc.toNat + (s.operandA rs1).toNat) ∧ KeepsRest [rs1] s t) ∧
    (s.acceptsWrite rd (BitVec.ofNat 16 (s.pc.toNat + 1)) = true →
      ∃ t, exec (.jmr true rd rs1) s = .next t ∧ WritesReg rd (BitVec.ofNat 16 (s.pc.toNat + 1)) s t ∧
        t.pc = BitVec.ofNat 16 (s.pc.toNat + (s.operandA rs1).toNat) ∧ KeepsRest [rs1] s t)

/-- R111: JMI links always and jumps by its signed immediate. -/
def Obligations.JmiJumpsAndLinks : Prop :=
  DecodesAs 0xFC00#16 0x2C00#16 (fun _ => true) (fun w => .jmi (w.extractLsb' 0 4) (w.extractLsb' 4 6)) ∧
  ∀ (rd : RegIdx) (imm6 : BitVec 6) (s : State), s.acceptsWrite rd (BitVec.ofNat 16 (s.pc.toNat + 1)) = true →
    ∃ t, exec (.jmi rd imm6) s = .next t ∧ WritesReg rd (BitVec.ofNat 16 (s.pc.toNat + 1)) s t ∧
      t.pc = BitVec.ofInt 16 (s.pc.toNat + imm6.toInt) ∧ KeepsRest [] s t

/-- R120 with the table of R112 (decision D10): BRC goes to x[rd] where its condition holds and on where it does not,
at every state of G and E, G = E = 1 among them (R122), and changes nothing but pc. -/
def Obligations.BrcBranchesAbsolute : Prop :=
  DecodesAs 0xFE00#16 0xF400#16 (fun _ => true) (fun w => .brc (w.extractLsb' 4 5) (w.extractLsb' 0 4)) ∧
  ∀ (fib : BitVec 5) (rd : RegIdx) (s : State), fib.toNat % 8 < 6 →
    ∃ t, exec (.brc fib rd) s = .next t ∧ KeepsRegs s t ∧ KeepsRest [rd] s t ∧
      (conditionHolds (fib.toNat % 8) (s.r15.getLsbD 5) (s.r15.getLsbD 4) →
        t.pc = s.operandA rd) ∧
      (¬ conditionHolds (fib.toNat % 8) (s.r15.getLsbD 5) (s.r15.getLsbD 4) →
        t.pc = s.pc + 1#16)

/-- R121 with the table of R112 (decision D10): BRR, whose target is measured from the branch itself. -/
def Obligations.BrrBranchesRelative : Prop :=
  DecodesAs 0xFE00#16 0xF600#16 (fun _ => true) (fun w => .brr (w.extractLsb' 4 5) (w.extractLsb' 0 4)) ∧
  ∀ (fib : BitVec 5) (rd : RegIdx) (s : State), fib.toNat % 8 < 6 →
    ∃ t, exec (.brr fib rd) s = .next t ∧ KeepsRegs s t ∧ KeepsRest [rd] s t ∧
      (conditionHolds (fib.toNat % 8) (s.r15.getLsbD 5) (s.r15.getLsbD 4) →
        t.pc = BitVec.ofNat 16 (s.pc.toNat + (s.operandA rd).toNat)) ∧
      (¬ conditionHolds (fib.toNat % 8) (s.r15.getLsbD 5) (s.r15.getLsbD 4) →
        t.pc = s.pc + 1#16)

/-- R84 (decision D8): a branch on condition 110 or 111 faults whatever the flags and whatever FIB[4:3], and FIB[4:3]
make no difference to any branch. -/
def Obligations.ReservedConditionFaults : Prop :=
  (∀ (fib : BitVec 5) (rd : RegIdx) (s : State), 6 ≤ fib.toNat % 8 →
    exec (.brc fib rd) s = .fault (.reservedCondition s.pc) ∧
    exec (.brr fib rd) s = .fault (.reservedCondition s.pc)) ∧
  ∀ (fib fib' : BitVec 5) (rd : RegIdx) (s : State), fib.toNat % 8 = fib'.toNat % 8 →
    exec (.brc fib rd) s = exec (.brc fib' rd) s ∧ exec (.brr fib rd) s = exec (.brr fib' rd) s

/-- R113 to R115 (decision D10 for the clearing of flags): CMR and CMRS write G and E from x[rs1] against x[rd], unsigned
and signed, and nothing else but pc. -/
def Obligations.RegisterComparesWriteTheFlags : Prop :=
  DecodesAs 0xFE00#16 0xF000#16 (fun r15 => !r15.getLsbD 10) (fun w => .cmr (w.extractLsb' 4 4) (w.extractLsb' 0 4)) ∧
  DecodesAs 0xFE00#16 0xF000#16 (fun r15 => r15.getLsbD 10) (fun w => .cmrs (w.extractLsb' 4 4) (w.extractLsb' 0 4)) ∧
  ∀ (rs1 rd : RegIdx) (s : State),
    (∃ t, exec (.cmr rs1 rd) s = .next t ∧ t.pc = s.pc + 1#16 ∧ KeepsRest [rs1, rd] s t ∧
      WritesFlags (decide (reading false (s.operandA rs1) > reading false (s.operandB rd)))
        (decide (reading false (s.operandA rs1) = reading false (s.operandB rd))) s t) ∧
    (∃ t, exec (.cmrs rs1 rd) s = .next t ∧ t.pc = s.pc + 1#16 ∧ KeepsRest [rs1, rd] s t ∧
      WritesFlags (decide (reading true (s.operandA rs1) > reading true (s.operandB rd)))
        (decide (reading true (s.operandA rs1) = reading true (s.operandB rd))) s t)

/-- R113, R116, R117 (decision D10): CMI and CMIS compare the sign-extended immediate, first, with x[rd]; CMI reads the
extended immediate unsigned. -/
def Obligations.ImmediateComparesWriteTheFlags : Prop :=
  DecodesAs 0xFE00#16 0xF200#16 (fun r15 => !r15.getLsbD 10) (fun w => .cmi (w.extractLsb' 4 5) (w.extractLsb' 0 4)) ∧
  DecodesAs 0xFE00#16 0xF200#16 (fun r15 => r15.getLsbD 10) (fun w => .cmis (w.extractLsb' 4 5) (w.extractLsb' 0 4)) ∧
  ∀ (imm5 : BitVec 5) (rd : RegIdx) (s : State),
    (∃ t, exec (.cmi imm5 rd) s = .next t ∧ t.pc = s.pc + 1#16 ∧ KeepsRest [rd] s t ∧
      WritesFlags (decide (imm5.toInt % 65536 > reading false (s.operandA rd)))
        (decide (imm5.toInt % 65536 = reading false (s.operandA rd))) s t) ∧
    (∃ t, exec (.cmis imm5 rd) s = .next t ∧ t.pc = s.pc + 1#16 ∧ KeepsRest [rd] s t ∧
      WritesFlags (decide (imm5.toInt > reading true (s.operandA rd)))
        (decide (imm5.toInt = reading true (s.operandA rd))) s t)

/-- R112 (decision D10): a branch right after a compare is taken exactly where the relation its condition names holds of
the first comparand to the second, for the four compares and both branches. -/
def Obligations.BranchAfterCompareFollowsTheRelation : Prop :=
  ∀ (signed relative : Bool) (first : RegIdx ⊕ BitVec 5) (rd rb : RegIdx) (fib : BitVec 5) (s : State),
    fib.toNat % 8 < 6 →
    let a := match first with | .inl rs1 => s.operandA rs1 | .inr imm5 => imm5.signExtend 16
    let b := match first with | .inl _ => s.operandB rd | .inr _ => s.operandA rd
    ∃ t u,
      exec (match first, signed with
        | .inl rs1, false => .cmr rs1 rd
        | .inl rs1, true => .cmrs rs1 rd
        | .inr imm5, false => .cmi imm5 rd
        | .inr imm5, true => .cmis imm5 rd) s = .next t ∧
      exec (if relative then .brr fib rb else .brc fib rb) t = .next u ∧
      (relationNamed (fib.toNat % 8) (reading signed a) (reading signed b) →
        u.pc = if relative then t.pc + t.operandA rb else t.operandA rb) ∧
      (¬ relationNamed (fib.toNat % 8) (reading signed a) (reading signed b) → u.pc = t.pc + 1#16)

/-! ## AND, moves, shifts, add and subtract -/

/-- R130: ANR. -/
def Obligations.AnrAnds : Prop :=
  DecodesAs 0xF000#16 0x3000#16 (fun _ => true)
    (fun w => .anr (w.extractLsb' 0 4) (w.extractLsb' 4 4) (w.extractLsb' 8 4)) ∧
  ∀ (rd rs1 rs2 : RegIdx) (s : State),
    let v := s.operandA rs1 &&& s.operandB rs2
    s.acceptsWrite rd v = true →
    ∃ t, exec (.anr rd rs1 rs2) s = .next t ∧ t.pc = s.pc + 1#16 ∧ KeepsRest [rs1, rs2] s t ∧ WritesReg rd v s t

/-- R131: ANI; the immediate is zero-extended, so bits 15:8 of the result are 0. -/
def Obligations.AniAndsAByte : Prop :=
  DecodesAs 0xF000#16 0x4000#16 (fun r15 => !r15.getLsbD 15) (fun w => .ani (w.extractLsb' 0 4) (w.extractLsb' 4 8)) ∧
  ∀ (rd : RegIdx) (imm8 : BitVec 8) (s : State),
    let v := s.operandA rd &&& BitVec.ofNat 16 imm8.toNat
    s.acceptsWrite rd v = true →
    ∃ t, exec (.ani rd imm8) s = .next t ∧ t.pc = s.pc + 1#16 ∧ KeepsRest [rd] s t ∧ WritesReg rd v s t

/-- R132: ANIR, the shadow of ANI; the immediate is zero-extended and the old rd is not used. -/
def Obligations.AnirAndsFourBits : Prop :=
  DecodesAs 0xF000#16 0x4000#16 (fun r15 => r15.getLsbD 15)
    (fun w => .anir (w.extractLsb' 0 4) (w.extractLsb' 4 4) (w.extractLsb' 8 4)) ∧
  ∀ (rd rs1 : RegIdx) (imm4 : BitVec 4) (s : State),
    let v := s.operandA rs1 &&& BitVec.ofNat 16 imm4.toNat
    s.acceptsWrite rd v = true →
    ∃ t, exec (.anir rd rs1 imm4) s = .next t ∧ t.pc = s.pc + 1#16 ∧ KeepsRest [rs1] s t ∧ WritesReg rd v s t

/-- R133: MSI; the old rd is not used. -/
def Obligations.MsiMovesASignedByte : Prop :=
  DecodesAs 0xF000#16 0x5000#16 (fun r15 => !r15.getLsbD 14) (fun w => .msi (w.extractLsb' 0 4) (w.extractLsb' 4 8)) ∧
  ∀ (rd : RegIdx) (imm8 : BitVec 8) (s : State),
    let v := BitVec.ofInt 16 imm8.toInt
    s.acceptsWrite rd v = true →
    ∃ t, exec (.msi rd imm8) s = .next t ∧ t.pc = s.pc + 1#16 ∧ KeepsRest [] s t ∧ WritesReg rd v s t

/-- R146 (decision D9): opcode 0101 with R15[14] = 1 is the fault UndescribedShadow whatever the state. -/
def Obligations.MsiShadowFaults : Prop :=
  DecodesAs 0xF000#16 0x5000#16 (fun r15 => r15.getLsbD 14)
    (fun w => .msiShadow (w.extractLsb' 0 4) (w.extractLsb' 4 8)) ∧
  ∀ (rd : RegIdx) (imm8 : BitVec 8) (s : State), exec (.msiShadow rd imm8) s = .fault (.undescribedShadow s.pc)

/-- R137: MHI replaces bits 15:8 and keeps bits 7:0. -/
def Obligations.MhiReplacesTheHighByte : Prop :=
  DecodesAs 0xF000#16 0x6000#16 (fun _ => true) (fun w => .mhi (w.extractLsb' 0 4) (w.extractLsb' 4 8)) ∧
  ∀ (rd : RegIdx) (imm8 : BitVec 8) (s : State),
    let v := BitVec.ofNat 16 (imm8.toNat * 256 + (s.operandA rd).toNat % 256)
    s.acceptsWrite rd v = true →
    ∃ t, exec (.mhi rd imm8) s = .next t ∧ t.pc = s.pc + 1#16 ∧ KeepsRest [rd] s t ∧ WritesReg rd v s t

/-- R134, R135, R138, R139 (decisions D15, D16): SLR and SAR shift x[rs1] by x[rs2][4:0], whose bit 4 means left; in the
sign-and-magnitude format by bits 3:0, in the two's-complement format left by 32 less the field. -/
def Obligations.RegisterShiftsShift : Prop :=
  DecodesAs 0xF000#16 0x7000#16 (fun _ => true)
    (fun w => .slr (w.extractLsb' 0 4) (w.extractLsb' 4 4) (w.extractLsb' 8 4)) ∧
  DecodesAs 0xF000#16 0x8000#16 (fun _ => true)
    (fun w => .sar (w.extractLsb' 0 4) (w.extractLsb' 4 4) (w.extractLsb' 8 4)) ∧
  ∀ (arith : Bool) (rd rs1 rs2 : RegIdx) (s : State),
    let amount := (s.operandB rs2).toNat % 32
    let v := match s.platform.regShiftFormat with
      | .signMagnitude => shiftLaw (decide (16 ≤ amount)) (amount % 16) arith (s.operandA rs1)
      | .twosComplement =>
        if 16 ≤ amount then shiftLaw true (32 - amount) arith (s.operandA rs1)
        else shiftLaw false amount arith (s.operandA rs1)
    s.acceptsWrite rd v = true →
    ∃ t, exec (if arith then .sar rd rs1 rs2 else .slr rd rs1 rs2) s = .next t ∧ t.pc = s.pc + 1#16 ∧
      KeepsRest [rs1, rs2] s t ∧ WritesReg rd v s t

/-- R136, R140, R141: ADR and SUR, exact sum and difference mod 2^16, rs1 the minuend; no flag is written. -/
def Obligations.RegisterAddAndSubtract : Prop :=
  DecodesAs 0xF000#16 0x9000#16 (fun _ => true)
    (fun w => .adr (w.extractLsb' 0 4) (w.extractLsb' 4 4) (w.extractLsb' 8 4)) ∧
  DecodesAs 0xF000#16 0xA000#16 (fun _ => true)
    (fun w => .sur (w.extractLsb' 0 4) (w.extractLsb' 4 4) (w.extractLsb' 8 4)) ∧
  ∀ (rd rs1 rs2 : RegIdx) (s : State),
    (let v := BitVec.ofInt 16 ((s.operandA rs1).toNat + (s.operandB rs2).toNat)
    s.acceptsWrite rd v = true →
      ∃ t, exec (.adr rd rs1 rs2) s = .next t ∧ t.pc = s.pc + 1#16 ∧ KeepsRest [rs1, rs2] s t ∧ WritesReg rd v s t) ∧
    (let v := BitVec.ofInt 16 ((s.operandA rs1).toNat - (s.operandB rs2).toNat)
    s.acceptsWrite rd v = true →
      ∃ t, exec (.sur rd rs1 rs2) s = .next t ∧ t.pc = s.pc + 1#16 ∧ KeepsRest [rs1, rs2] s t ∧ WritesReg rd v s t)

/-- R142, R144: ADI and SUI add and subtract the signed 8-bit immediate. -/
def Obligations.ImmediateAddAndSubtract : Prop :=
  DecodesAs 0xF000#16 0xB000#16 (fun r15 => !r15.getLsbD 15) (fun w => .adi (w.extractLsb' 0 4) (w.extractLsb' 4 8)) ∧
  DecodesAs 0xF000#16 0xC000#16 (fun r15 => !r15.getLsbD 15) (fun w => .sui (w.extractLsb' 0 4) (w.extractLsb' 4 8)) ∧
  ∀ (rd : RegIdx) (imm8 : BitVec 8) (s : State),
    (let v := BitVec.ofInt 16 ((s.operandA rd).toNat + imm8.toInt)
    s.acceptsWrite rd v = true →
      ∃ t, exec (.adi rd imm8) s = .next t ∧ t.pc = s.pc + 1#16 ∧ KeepsRest [rd] s t ∧ WritesReg rd v s t) ∧
    (let v := BitVec.ofInt 16 ((s.operandA rd).toNat - imm8.toInt)
    s.acceptsWrite rd v = true →
      ∃ t, exec (.sui rd imm8) s = .next t ∧ t.pc = s.pc + 1#16 ∧ KeepsRest [rd] s t ∧ WritesReg rd v s t)

/-- R143, R145: ADIR and SUIR, the shadows, add to and subtract from x[rs1] the signed 4-bit immediate. -/
def Obligations.ShadowAddAndSubtract : Prop :=
  DecodesAs 0xF000#16 0xB000#16 (fun r15 => r15.getLsbD 15)
    (fun w => .adir (w.extractLsb' 0 4) (w.extractLsb' 4 4) (w.extractLsb' 8 4)) ∧
  DecodesAs 0xF000#16 0xC000#16 (fun r15 => r15.getLsbD 15)
    (fun w => .suir (w.extractLsb' 0 4) (w.extractLsb' 4 4) (w.extractLsb' 8 4)) ∧
  ∀ (rd rs1 : RegIdx) (imm4 : BitVec 4) (s : State),
    (let v := BitVec.ofInt 16 ((s.operandA rs1).toNat + imm4.toInt)
    s.acceptsWrite rd v = true →
      ∃ t, exec (.adir rd rs1 imm4) s = .next t ∧ t.pc = s.pc + 1#16 ∧ KeepsRest [rs1] s t ∧ WritesReg rd v s t) ∧
    (let v := BitVec.ofInt 16 ((s.operandA rs1).toNat - imm4.toInt)
    s.acceptsWrite rd v = true →
      ∃ t, exec (.suir rd rs1 imm4) s = .next t ∧ t.pc = s.pc + 1#16 ∧ KeepsRest [rs1] s t ∧ WritesReg rd v s t)

/-! ## Multiply, divide, shift by immediate, complement -/

/-- R160, R25 (decision D14 for the wrap of rd + 1): MUL, low half to rd, high half to rd + 1. -/
def Obligations.MulWritesBothHalves : Prop :=
  DecodesAs 0xF000#16 0xD000#16 (fun r15 => !r15.getLsbD 13 && !r15.getLsbD 12)
    (fun w => .mul (w.extractLsb' 0 4) (w.extractLsb' 4 4) (w.extractLsb' 8 4)) ∧
  ∀ (rd rs1 rs2 : RegIdx) (s : State),
    let low := BitVec.ofNat 16 ((s.operandA rs1).toNat * (s.operandB rs2).toNat)
    let high := BitVec.ofNat 16 ((s.operandA rs1).toNat * (s.operandB rs2).toNat / 65536)
    s.acceptsWrite rd low = true → s.acceptsWrite (rd + 1#4) high = true →
    ∃ t, exec (.mul rd rs1 rs2) s = .next t ∧ t.pc = s.pc + 1#16 ∧ KeepsRest [rs1, rs2] s t ∧ WritesRegPair rd low high s t

/-- R161, R25 (decision D14): MULS, the halves of the signed product mod 2^32. -/
def Obligations.MulsWritesBothHalves : Prop :=
  DecodesAs 0xF000#16 0xD000#16 (fun r15 => !r15.getLsbD 13 && r15.getLsbD 12)
    (fun w => .muls (w.extractLsb' 0 4) (w.extractLsb' 4 4) (w.extractLsb' 8 4)) ∧
  ∀ (rd rs1 rs2 : RegIdx) (s : State),
    let low := BitVec.ofInt 16 ((s.operandA rs1).toInt * (s.operandB rs2).toInt % 4294967296)
    let high := BitVec.ofInt 16 ((s.operandA rs1).toInt * (s.operandB rs2).toInt % 4294967296 / 65536)
    s.acceptsWrite rd low = true → s.acceptsWrite (rd + 1#4) high = true →
    ∃ t, exec (.muls rd rs1 rs2) s = .next t ∧ t.pc = s.pc + 1#16 ∧ KeepsRest [rs1, rs2] s t ∧ WritesRegPair rd low high s t

/-- R162, R163: MULL writes the low half to rd and no other register, and it is the low half of the signed product as
well as of the unsigned one, so R15[12] makes no difference. -/
def Obligations.MullWritesTheLowHalf : Prop :=
  DecodesAs 0xF000#16 0xD000#16 (fun r15 => r15.getLsbD 13)
    (fun w => .mull (w.extractLsb' 0 4) (w.extractLsb' 4 4) (w.extractLsb' 8 4)) ∧
  ∀ (rd rs1 rs2 : RegIdx) (s : State),
    let v := BitVec.ofNat 16 ((s.operandA rs1).toNat * (s.operandB rs2).toNat)
    s.acceptsWrite rd v = true →
    ∃ t, exec (.mull rd rs1 rs2) s = .next t ∧ t.pc = s.pc + 1#16 ∧ KeepsRest [rs1, rs2] s t ∧
      WritesReg rd v s t ∧ WritesReg rd (BitVec.ofInt 16 ((s.operandA rs1).toInt * (s.operandB rs2).toInt)) s t

/-- R164, R25 (decision D14): DIV by a divisor that is not zero: the quotient to rd, the remainder to rd + 1. -/
def Obligations.DivWritesQuotientAndRemainder : Prop :=
  DecodesAs 0xF000#16 0xE000#16 (fun r15 => !r15.getLsbD 11 && !r15.getLsbD 12)
    (fun w => .div (w.extractLsb' 0 4) (w.extractLsb' 4 4) (w.extractLsb' 8 4)) ∧
  ∀ (rd rs1 rs2 : RegIdx) (s : State), s.operandB rs2 ≠ 0#16 →
    ∃ q r : Nat, (s.operandA rs1).toNat = q * (s.operandB rs2).toNat + r ∧ r < (s.operandB rs2).toNat ∧
      (s.acceptsWrite rd (BitVec.ofNat 16 q) = true → s.acceptsWrite (rd + 1#4) (BitVec.ofNat 16 r) = true →
        ∃ t, exec (.div rd rs1 rs2) s = .next t ∧ t.pc = s.pc + 1#16 ∧ KeepsRest [rs1, rs2] s t ∧
          WritesRegPair rd (BitVec.ofNat 16 q) (BitVec.ofNat 16 r) s t)

/-- R165, R167 (decisions D14, D17): DIVS by a divisor that is not zero: the quotient rounded toward zero, the remainder
with the sign of the dividend or 0; -32768 / -1, whose quotient 32768 is kept mod 2^16 (R169), among them. -/
def Obligations.DivsWritesQuotientAndRemainder : Prop :=
  DecodesAs 0xF000#16 0xE000#16 (fun r15 => !r15.getLsbD 11 && r15.getLsbD 12)
    (fun w => .divs (w.extractLsb' 0 4) (w.extractLsb' 4 4) (w.extractLsb' 8 4)) ∧
  ∀ (rd rs1 rs2 : RegIdx) (s : State), s.operandB rs2 ≠ 0#16 →
    ∃ q r : Int, (s.operandA rs1).toInt = q * (s.operandB rs2).toInt + r ∧ r.natAbs < (s.operandB rs2).toInt.natAbs ∧
      (r = 0 ∨ (r < 0 ↔ (s.operandA rs1).toInt < 0)) ∧
      (s.acceptsWrite rd (BitVec.ofInt 16 q) = true → s.acceptsWrite (rd + 1#4) (BitVec.ofInt 16 r) = true →
        ∃ t, exec (.divs rd rs1 rs2) s = .next t ∧ t.pc = s.pc + 1#16 ∧ KeepsRest [rs1, rs2] s t ∧
          WritesRegPair rd (BitVec.ofInt 16 q) (BitVec.ofInt 16 r) s t)

/-- R166 (decision D13): DIVQ by a divisor that is not zero: the quotient of DIV where R15[12] = 0, of DIVS where
R15[12] = 1, to rd, and no other register. -/
def Obligations.DivqWritesTheQuotient : Prop :=
  DecodesAs 0xF000#16 0xE000#16 (fun r15 => r15.getLsbD 11)
    (fun w => .divq (w.extractLsb' 0 4) (w.extractLsb' 4 4) (w.extractLsb' 8 4)) ∧
  ∀ (rd rs1 rs2 : RegIdx) (s : State), s.operandB rs2 ≠ 0#16 →
    let a := reading (s.r15.getLsbD 12) (s.operandA rs1)
    let b := reading (s.r15.getLsbD 12) (s.operandB rs2)
    ∃ q r : Int, a = q * b + r ∧ r.natAbs < b.natAbs ∧ (r = 0 ∨ (r < 0 ↔ a < 0)) ∧
      (s.acceptsWrite rd (BitVec.ofInt 16 q) = true →
        ∃ t, exec (.divq rd rs1 rs2) s = .next t ∧ t.pc = s.pc + 1#16 ∧ KeepsRest [rs1, rs2] s t ∧
          WritesReg rd (BitVec.ofInt 16 q) s t)

/-- R168 (decision D18): a division by zero is the fault DivideByZero where the platform's DIV_BY_ZERO is fault. Where it
is any_value the three divides complete: the registers they would write take values of which nothing is said (log 8),
two for DIV and DIVS, one for DIVQ, and every other register, memory and the IO history are kept. -/
def Obligations.DivisionByZero : Prop :=
  ∀ (rd rs1 rs2 : RegIdx) (s : State), s.operandB rs2 = 0#16 →
    let n := (s.afterReading [rs1, rs2]).draws
    (s.platform.divByZero = .fault →
      exec (.div rd rs1 rs2) s = .fault (.divideByZero s.pc) ∧
      exec (.divs rd rs1 rs2) s = .fault (.divideByZero s.pc) ∧
      exec (.divq rd rs1 rs2) s = .fault (.divideByZero s.pc)) ∧
    (s.platform.divByZero = .anyValue → s.acceptsWrite rd (Config.draw n) = true →
      (s.acceptsWrite (rd + 1#4) (Config.draw (n + 1)) = true →
        ∃ t v w, exec (.div rd rs1 rs2) s = .next t ∧ exec (.divs rd rs1 rs2) s = .next t ∧ t.pc = s.pc + 1#16 ∧
          WritesRegPair rd v w s t ∧ KeepsMemory s t ∧ t.ioHistory = s.ioHistory ∧ t.platform = s.platform ∧
          t.draws = n + 2) ∧
      (∃ t v, exec (.divq rd rs1 rs2) s = .next t ∧ t.pc = s.pc + 1#16 ∧ WritesReg rd v s t ∧ KeepsMemory s t ∧
        t.ioHistory = s.ioHistory ∧ t.platform = s.platform ∧ t.draws = n + 1))

/-- R134, R135, R170 (decision D16): SHI shifts x[rd] by its sign-and-magnitude immediate, bit 4 meaning left, arithmetic
where LA = 1; the platform's format for register shifts makes no difference. -/
def Obligations.ShiShiftsByTheImmediate : Prop :=
  (DecodesAs 0xFC00#16 0xF800#16 (fun _ => true)
    (fun w => .shi (w.getLsbD 9) (w.extractLsb' 0 4) (w.extractLsb' 4 5))) ∧
  ∀ (la : Bool) (rd : RegIdx) (shim : BitVec 5) (s : State),
    let v := shiftLaw (decide (16 ≤ shim.toNat)) (shim.toNat % 16) la (s.operandA rd)
    s.acceptsWrite rd v = true →
    ∃ t, exec (.shi la rd shim) s = .next t ∧ t.pc = s.pc + 1#16 ∧ KeepsRest [rd] s t ∧ WritesReg rd v s t

/-- R171, R172: NTR and NTD, one's complement where c = 0, the negation mod 2^16 where c = 1. -/
def Obligations.ComplementsComplement : Prop :=
  (DecodesAs 0xFE00#16 0xFC00#16 (fun _ => true)
    (fun w => .ntr (w.getLsbD 8) (w.extractLsb' 0 4) (w.extractLsb' 4 4))) ∧
  DecodesAs 0xFE00#16 0xFE00#16 (fun _ => true) (fun w => .ntd (w.getLsbD 8) (w.extractLsb' 0 4)) ∧
  ∀ (c : Bool) (rd rs1 : RegIdx) (s : State),
    (let v := BitVec.ofInt 16 (if c then 0 - (s.operandA rs1).toNat else 0xFFFF - (s.operandA rs1).toNat)
    s.acceptsWrite rd v = true →
      ∃ t, exec (.ntr c rd rs1) s = .next t ∧ t.pc = s.pc + 1#16 ∧ KeepsRest [rs1] s t ∧ WritesReg rd v s t) ∧
    (let v := BitVec.ofInt 16 (if c then 0 - (s.operandA rd).toNat else 0xFFFF - (s.operandA rd).toNat)
    s.acceptsWrite rd v = true →
      ∃ t, exec (.ntd c rd) s = .next t ∧ t.pc = s.pc + 1#16 ∧ KeepsRest [rd] s t ∧ WritesReg rd v s t)

/-- R173, R172: two's complement by NTR is subtraction from R0, and NTD is NTR with rs1 = rd, in every state in which the
two read the same operand: always but for a volatile R15, which two instructions need not read alike (R34). -/
def Obligations.NegationIsSubtractionFromZero : Prop :=
  ∀ (c : Bool) (rd rs : RegIdx) (s : State),
    (s.operandA rs = s.operandB rs → exec (.ntr true rd rs) s = exec (.sur rd 0#4 rs) s) ∧
    exec (.ntd c rd) s = exec (.ntr c rd rd) s

/-! ## The whole machine -/

/-- The model's memory stays in its canonical form (log 5): strictly rising places inside the 2^16 words of R50. -/
def Obligations.StepKeepsMemoryCanonical : Prop :=
  ∀ s t : State, Memory.wf s.mem = true → step s = .next t → Memory.wf t.mem = true

/-- R36, R40, R59, R61: no instruction but STR changes a byte of memory, none but LDRio and STRio adds an event to the
IO history and those add one, and none changes the platform. -/
def Obligations.OnlyTransfersReachMemoryAndIo : Prop :=
  ∀ (i : Instr) (s t : State), exec i s = .next t →
    t.platform = s.platform ∧
    ((∀ rd rs1, i ≠ .str rd rs1) → KeepsMemory s t) ∧
    ((∀ rd rs1, i ≠ .ldrIo rd rs1) → (∀ rd rs1, i ≠ .strIo rd rs1) → t.ioHistory = s.ioHistory) ∧
    ((∃ rd rs1, i = .ldrIo rd rs1 ∨ i = .strIo rd rs1) → ∃ e, t.ioHistory = s.ioHistory ++ [e])

/-- R33 (decision D11), R40, R22: no instruction changes a register outside its destinations. R15 is a destination of a
compare and of an instruction that names it, so no other instruction changes a flag, a shadow bit or any bit of R15. -/
def Obligations.OnlyDestinationsChange : Prop :=
  ∀ (i : Instr) (s t : State), exec i s = .next t → ∀ r, r ∉ i.destinations → t.readReg r = s.readReg r

/-- R28 (with R29): every instruction but a jump or a branch ends with pc + 1 mod 2^16. -/
def Obligations.PcAdvancesByOne : Prop :=
  ∀ (i : Instr) (s t : State), i.fallsThrough = true → exec i s = .next t →
    t.pc = BitVec.ofNat 16 ((s.pc.toNat + 1) % 65536)

/-- R26, R40: what an instruction does depends on no register but those it reads. Two states that agree on those and on
pc, memory, IO history, free values drawn and platform fault alike, or go to states that agree on the destinations, pc,
memory, IO history, free values drawn and platform. -/
def Obligations.EffectDependsOnlyOnSources : Prop :=
  ∀ (i : Instr) (s s' : State),
    s'.pc = s.pc → s'.mem = s.mem → s'.ioHistory = s.ioHistory → s'.draws = s.draws → s'.platform = s.platform →
    (∀ r ∈ i.sources, s'.readReg r = s.readReg r) →
    (∀ f, exec i s = .fault f → exec i s' = .fault f) ∧
    (∀ t, exec i s = .next t →
      ∃ t', exec i s' = .next t' ∧ t'.pc = t.pc ∧ t'.mem = t.mem ∧ t'.ioHistory = t.ioHistory ∧
        t'.draws = t.draws ∧ t'.platform = t.platform ∧ ∀ r ∈ i.destinations, t'.readReg r = t.readReg r)

/-! ## Launch and reset -/

/-- R37, R210 (decision D19): at launch R0 is 0, R15 holds RESET_R15 and pc RESET_PC, whatever these parameters, the
platform, the content of R1 to R14 and the image are; no IO event has happened and memory is in canonical form. -/
def Obligations.LaunchStateHoldsItsParameters : Prop :=
  ∀ (p : Platform) (resetPc resetR15 : Word) (resetRegs : Vector Word 14) (image : Image),
    let s := State.launch p resetPc resetR15 resetRegs image
    s.readReg 0#4 = 0#16 ∧ s.r15 = resetR15 ∧ s.pc = resetPc ∧ s.platform = p ∧ s.ioHistory = [] ∧
    Memory.wf s.mem = true ∧
    ∀ (r : RegIdx) (h : 1 ≤ r.toNat ∧ r.toNat ≤ 14), s.readReg r = resetRegs[r.toNat - 1]

/-- R215, R221 (decisions D3, D19, D21): the host's load puts every word of the image, program and data, where the image
says and defines no other byte; so where MEM_MAP admits the fetches, loads and stores, the launch state meets the launch
premises, the undefined rest of memory being free values (log 4). -/
def Obligations.LaunchMeetsItsPremises : Prop :=
  (∀ (s : State) (image : Image), image.Pairwise (fun p q => p.1 ≠ q.1) →
    (∀ p ∈ image, Memory.readWord (s.load image).mem p.1 = p.2) ∧
    (∀ k, (∀ p ∈ image, k ≠ lowPlace p.1 ∧ k ≠ highPlace p.1) →
      Memory.byteAt (s.load image).mem k = Memory.byteAt s.mem k) ∧
    KeepsRegs s (s.load image) ∧ (s.load image).pc = s.pc ∧ (s.load image).ioHistory = s.ioHistory ∧
    (s.load image).draws = s.draws ∧ (s.load image).platform = s.platform) ∧
  ∀ (p : Platform) (resetPc resetR15 : Word) (resetRegs : Vector Word 14) (program data : Image)
    (loads stores : List Word),
    (program ++ data).Pairwise (fun p q => p.1 ≠ q.1) →
    (∀ w ∈ program, mapAdmits p.memMap .fetch w.1 = true) → (∀ a ∈ loads, mapAdmits p.memMap .load a = true) →
    (∀ a ∈ stores, mapAdmits p.memMap .store a = true) →
    (State.launch p resetPc resetR15 resetRegs (program ++ data)).launchPremises resetPc program loads stores

/-- The reset state: R0 = 0 and no IO event, as the spec has it (R22, R37); every other register 0, pc 0x0000, nothing
loaded, as the model chooses (log 1 to log 3, log 25); the platform at the spec's defaults (decisions D6, D12, D15, D18,
D24), every address admitted for every access. -/
def Obligations.ResetState : Prop :=
  (∀ r, State.reset.readReg r = 0#16) ∧ State.reset.pc = 0x0000#16 ∧ State.reset.ioHistory = [] ∧
  Memory.wf State.reset.mem = true ∧ State.reset.platform.regShiftFormat = .signMagnitude ∧
  State.reset.platform.divByZero = .fault ∧ State.reset.platform.ignoredBits = .ignore ∧
  State.reset.platform.r15Undoc = .storage ∧
  (∀ k a, mapAdmits State.reset.platform.memMap k a = true) ∧
  State.reset = State.launch defaultPlatform 0x0000#16 0x0000#16 (Vector.replicate 14 0x0000#16) []
end

