-- ==== Sys2Proof/Laws/Encoding.lean ====
section
/-! SUPPORT. Every field of every format is read back from the word the encoder makes (30_encoding.md R71 to R78). -/

namespace Sys2Proof

@[simp] theorem irOpcode_encRRR (op : BitVec 4) (rs2 rs1 rd : RegIdx) : irOpcode (encRRR op rs2 rs1 rd) = op := by
  apply BitVec.eq_of_getLsbD_eq; intro i hi
  simp only [irOpcode, encRRR, BitVec.getLsbD_append, BitVec.getLsbD_extractLsb']
  interval_cases i <;> rfl

@[simp] theorem irRs2_encRRR (op : BitVec 4) (rs2 rs1 rd : RegIdx) : irRs2 (encRRR op rs2 rs1 rd) = rs2 := by
  apply BitVec.eq_of_getLsbD_eq; intro i hi
  simp only [irRs2, encRRR, BitVec.getLsbD_append, BitVec.getLsbD_extractLsb']
  interval_cases i <;> rfl

@[simp] theorem irRs1_encRRR (op : BitVec 4) (rs2 rs1 rd : RegIdx) : irRs1 (encRRR op rs2 rs1 rd) = rs1 := by
  apply BitVec.eq_of_getLsbD_eq; intro i hi
  simp only [irRs1, encRRR, BitVec.getLsbD_append, BitVec.getLsbD_extractLsb']
  interval_cases i <;> rfl

@[simp] theorem irRd_encRRR (op : BitVec 4) (rs2 rs1 rd : RegIdx) : irRd (encRRR op rs2 rs1 rd) = rd := by
  apply BitVec.eq_of_getLsbD_eq; intro i hi
  simp only [irRd, encRRR, BitVec.getLsbD_append, BitVec.getLsbD_extractLsb']
  interval_cases i <;> rfl

@[simp] theorem irOpcode_encRI8 (op : BitVec 4) (imm8 : BitVec 8) (rd : RegIdx) : irOpcode (encRI8 op imm8 rd) = op := by
  apply BitVec.eq_of_getLsbD_eq; intro i hi
  simp only [irOpcode, encRI8, BitVec.getLsbD_append, BitVec.getLsbD_extractLsb']
  interval_cases i <;> rfl

@[simp] theorem irImm8_encRI8 (op : BitVec 4) (imm8 : BitVec 8) (rd : RegIdx) : irImm8 (encRI8 op imm8 rd) = imm8 := by
  apply BitVec.eq_of_getLsbD_eq; intro i hi
  simp only [irImm8, encRI8, BitVec.getLsbD_append, BitVec.getLsbD_extractLsb']
  interval_cases i <;> rfl

@[simp] theorem irRd_encRI8 (op : BitVec 4) (imm8 : BitVec 8) (rd : RegIdx) : irRd (encRI8 op imm8 rd) = rd := by
  apply BitVec.eq_of_getLsbD_eq; intro i hi
  simp only [irRd, encRI8, BitVec.getLsbD_append, BitVec.getLsbD_extractLsb']
  interval_cases i <;> rfl

@[simp] theorem irOpcode_encRI4 (op imm4 : BitVec 4) (rs1 rd : RegIdx) : irOpcode (encRI4 op imm4 rs1 rd) = op := by
  apply BitVec.eq_of_getLsbD_eq; intro i hi
  simp only [irOpcode, encRI4, BitVec.getLsbD_append, BitVec.getLsbD_extractLsb']
  interval_cases i <;> rfl

@[simp] theorem irRs2_encRI4 (op imm4 : BitVec 4) (rs1 rd : RegIdx) : irRs2 (encRI4 op imm4 rs1 rd) = imm4 := by
  apply BitVec.eq_of_getLsbD_eq; intro i hi
  simp only [irRs2, encRI4, BitVec.getLsbD_append, BitVec.getLsbD_extractLsb']
  interval_cases i <;> rfl

@[simp] theorem irRs1_encRI4 (op imm4 : BitVec 4) (rs1 rd : RegIdx) : irRs1 (encRI4 op imm4 rs1 rd) = rs1 := by
  apply BitVec.eq_of_getLsbD_eq; intro i hi
  simp only [irRs1, encRI4, BitVec.getLsbD_append, BitVec.getLsbD_extractLsb']
  interval_cases i <;> rfl

@[simp] theorem irRd_encRI4 (op imm4 : BitVec 4) (rs1 rd : RegIdx) : irRd (encRI4 op imm4 rs1 rd) = rd := by
  apply BitVec.eq_of_getLsbD_eq; intro i hi
  simp only [irRd, encRI4, BitVec.getLsbD_append, BitVec.getLsbD_extractLsb']
  interval_cases i <;> rfl

@[simp] theorem irOpcode_encXR (op : BitVec 4) (ext : BitVec 2) (opt : Bool) (rs1 rd : RegIdx) : irOpcode (encXR op ext opt rs1 rd) = op := by
  apply BitVec.eq_of_getLsbD_eq; intro i hi
  simp only [irOpcode, encXR, BitVec.getLsbD_append, BitVec.getLsbD_extractLsb']
  interval_cases i <;> rfl

@[simp] theorem irExt_encXR (op : BitVec 4) (ext : BitVec 2) (opt : Bool) (rs1 rd : RegIdx) : irExt (encXR op ext opt rs1 rd) = ext := by
  apply BitVec.eq_of_getLsbD_eq; intro i hi
  simp only [irExt, encXR, BitVec.getLsbD_append, BitVec.getLsbD_extractLsb']
  interval_cases i <;> rfl

@[simp] theorem irOpt_encXR (op : BitVec 4) (ext : BitVec 2) (opt : Bool) (rs1 rd : RegIdx) : irOpt (encXR op ext opt rs1 rd) = opt := by
  simp only [irOpt, encXR, BitVec.getLsbD_append]
  cases opt <;> rfl

@[simp] theorem irRs1_encXR (op : BitVec 4) (ext : BitVec 2) (opt : Bool) (rs1 rd : RegIdx) : irRs1 (encXR op ext opt rs1 rd) = rs1 := by
  apply BitVec.eq_of_getLsbD_eq; intro i hi
  simp only [irRs1, encXR, BitVec.getLsbD_append, BitVec.getLsbD_extractLsb']
  interval_cases i <;> rfl

@[simp] theorem irRd_encXR (op : BitVec 4) (ext : BitVec 2) (opt : Bool) (rs1 rd : RegIdx) : irRd (encXR op ext opt rs1 rd) = rd := by
  apply BitVec.eq_of_getLsbD_eq; intro i hi
  simp only [irRd, encXR, BitVec.getLsbD_append, BitVec.getLsbD_extractLsb']
  interval_cases i <;> rfl

@[simp] theorem irOpcode_encJ6 (imm6 : BitVec 6) (rd : RegIdx) : irOpcode (encJ6 imm6 rd) = 0b0010#4 := by
  apply BitVec.eq_of_getLsbD_eq; intro i hi
  simp only [irOpcode, encJ6, BitVec.getLsbD_append, BitVec.getLsbD_extractLsb']
  interval_cases i <;> rfl

@[simp] theorem irExt_encJ6 (imm6 : BitVec 6) (rd : RegIdx) : irExt (encJ6 imm6 rd) = 0b11#2 := by
  apply BitVec.eq_of_getLsbD_eq; intro i hi
  simp only [irExt, encJ6, BitVec.getLsbD_append, BitVec.getLsbD_extractLsb']
  interval_cases i <;> rfl

@[simp] theorem irImm6_encJ6 (imm6 : BitVec 6) (rd : RegIdx) : irImm6 (encJ6 imm6 rd) = imm6 := by
  apply BitVec.eq_of_getLsbD_eq; intro i hi
  simp only [irImm6, encJ6, BitVec.getLsbD_append, BitVec.getLsbD_extractLsb']
  interval_cases i <;> rfl

@[simp] theorem irRd_encJ6 (imm6 : BitVec 6) (rd : RegIdx) : irRd (encJ6 imm6 rd) = rd := by
  apply BitVec.eq_of_getLsbD_eq; intro i hi
  simp only [irRd, encJ6, BitVec.getLsbD_append, BitVec.getLsbD_extractLsb']
  interval_cases i <;> rfl

@[simp] theorem irOpcode_encX5 (ext : BitVec 2) (opt : Bool) (f5 : BitVec 5) (rd : RegIdx) : irOpcode (encX5 ext opt f5 rd) = 0b1111#4 := by
  apply BitVec.eq_of_getLsbD_eq; intro i hi
  simp only [irOpcode, encX5, BitVec.getLsbD_append, BitVec.getLsbD_extractLsb']
  interval_cases i <;> rfl

@[simp] theorem irExt_encX5 (ext : BitVec 2) (opt : Bool) (f5 : BitVec 5) (rd : RegIdx) : irExt (encX5 ext opt f5 rd) = ext := by
  apply BitVec.eq_of_getLsbD_eq; intro i hi
  simp only [irExt, encX5, BitVec.getLsbD_append, BitVec.getLsbD_extractLsb']
  interval_cases i <;> rfl

@[simp] theorem irOpt_encX5 (ext : BitVec 2) (opt : Bool) (f5 : BitVec 5) (rd : RegIdx) : irOpt (encX5 ext opt f5 rd) = opt := by
  simp only [irOpt, encX5, BitVec.getLsbD_append]
  cases opt <;> rfl

@[simp] theorem irF5_encX5 (ext : BitVec 2) (opt : Bool) (f5 : BitVec 5) (rd : RegIdx) : irF5 (encX5 ext opt f5 rd) = f5 := by
  apply BitVec.eq_of_getLsbD_eq; intro i hi
  simp only [irF5, encX5, BitVec.getLsbD_append, BitVec.getLsbD_extractLsb']
  interval_cases i <;> rfl

@[simp] theorem irRd_encX5 (ext : BitVec 2) (opt : Bool) (f5 : BitVec 5) (rd : RegIdx) : irRd (encX5 ext opt f5 rd) = rd := by
  apply BitVec.eq_of_getLsbD_eq; intro i hi
  simp only [irRd, encX5, BitVec.getLsbD_append, BitVec.getLsbD_extractLsb']
  interval_cases i <;> rfl

@[simp] theorem irOpcode_encN (d c : Bool) (rs1 rd : RegIdx) : irOpcode (encN d c rs1 rd) = 0b1111#4 := by
  apply BitVec.eq_of_getLsbD_eq; intro i hi
  simp only [irOpcode, encN, BitVec.getLsbD_append, BitVec.getLsbD_extractLsb']
  interval_cases i <;> rfl

@[simp] theorem irExt_encN (d c : Bool) (rs1 rd : RegIdx) : irExt (encN d c rs1 rd) = 0b11#2 := by
  apply BitVec.eq_of_getLsbD_eq; intro i hi
  simp only [irExt, encN, BitVec.getLsbD_append, BitVec.getLsbD_extractLsb']
  interval_cases i <;> rfl

@[simp] theorem irOpt_encN (d c : Bool) (rs1 rd : RegIdx) : irOpt (encN d c rs1 rd) = d := by
  simp only [irOpt, encN, BitVec.getLsbD_append]
  cases d <;> rfl

@[simp] theorem irC_encN (d c : Bool) (rs1 rd : RegIdx) : irC (encN d c rs1 rd) = c := by
  simp only [irC, encN, BitVec.getLsbD_append]
  cases c <;> rfl

@[simp] theorem irRs1_encN (d c : Bool) (rs1 rd : RegIdx) : irRs1 (encN d c rs1 rd) = rs1 := by
  apply BitVec.eq_of_getLsbD_eq; intro i hi
  simp only [irRs1, encN, BitVec.getLsbD_append, BitVec.getLsbD_extractLsb']
  interval_cases i <;> rfl

@[simp] theorem irRd_encN (d c : Bool) (rs1 rd : RegIdx) : irRd (encN d c rs1 rd) = rd := by
  apply BitVec.eq_of_getLsbD_eq; intro i hi
  simp only [irRd, encN, BitVec.getLsbD_append, BitVec.getLsbD_extractLsb']
  interval_cases i <;> rfl

/-- The opcode of a reserved word. -/
@[simp] theorem irOpcode_reserved (op : BitVec 4) (low : BitVec 12) : irOpcode (op ++ low) = op := by
  apply BitVec.eq_of_getLsbD_eq; intro i hi
  simp only [irOpcode, BitVec.getLsbD_append, BitVec.getLsbD_extractLsb']
  interval_cases i <;> rfl

/-- The rest of a reserved word. -/
@[simp] theorem irLow_reserved (op : BitVec 4) (low : BitVec 12) : irLow (op ++ low) = low := by
  apply BitVec.eq_of_getLsbD_eq; intro i hi
  simp only [irLow, BitVec.getLsbD_append, BitVec.getLsbD_extractLsb']
  interval_cases i <;> rfl

end Sys2Proof
end

