-- ==== Sys2Proof/Laws/State.lean ====
section
/-! SUPPORT. One lemma per field per update of `State`, so that no proof unfolds a record update. -/

namespace Sys2Proof.Machine

@[simp] theorem State.advance_regs (s : State) : s.advance.regs = s.regs := rfl
@[simp] theorem State.advance_pc (s : State) : s.advance.pc = s.pc + 1#16 := rfl
@[simp] theorem State.advance_mem (s : State) : s.advance.mem = s.mem := rfl
@[simp] theorem State.advance_ioHistory (s : State) : s.advance.ioHistory = s.ioHistory := rfl
@[simp] theorem State.advance_draws (s : State) : s.advance.draws = s.draws := rfl
@[simp] theorem State.advance_platform (s : State) : s.advance.platform = s.platform := rfl
@[simp] theorem State.advance_readReg (s : State) (r : RegIdx) : s.advance.readReg r = s.readReg r := rfl
@[simp] theorem State.advance_r15 (s : State) : s.advance.r15 = s.r15 := rfl

@[simp] theorem State.jumpTo_regs (s : State) (t : Word) : (s.jumpTo t).regs = s.regs := rfl
@[simp] theorem State.jumpTo_pc (s : State) (t : Word) : (s.jumpTo t).pc = t := rfl
@[simp] theorem State.jumpTo_mem (s : State) (t : Word) : (s.jumpTo t).mem = s.mem := rfl
@[simp] theorem State.jumpTo_ioHistory (s : State) (t : Word) : (s.jumpTo t).ioHistory = s.ioHistory := rfl
@[simp] theorem State.jumpTo_draws (s : State) (t : Word) : (s.jumpTo t).draws = s.draws := rfl
@[simp] theorem State.jumpTo_platform (s : State) (t : Word) : (s.jumpTo t).platform = s.platform := rfl
@[simp] theorem State.jumpTo_readReg (s : State) (t : Word) (r : RegIdx) : (s.jumpTo t).readReg r = s.readReg r := rfl
@[simp] theorem State.jumpTo_r15 (s : State) (t : Word) : (s.jumpTo t).r15 = s.r15 := rfl

@[simp] theorem ioRead_regs (s : State) (a : Word) : (ioRead s a).regs = s.regs := rfl
@[simp] theorem ioRead_pc (s : State) (a : Word) : (ioRead s a).pc = s.pc := rfl
@[simp] theorem ioRead_mem (s : State) (a : Word) : (ioRead s a).mem = s.mem := rfl
@[simp] theorem ioRead_ioHistory (s : State) (a : Word) :
    (ioRead s a).ioHistory = s.ioHistory ++ [.read a (ioAnswer s)] := rfl
@[simp] theorem ioRead_draws (s : State) (a : Word) : (ioRead s a).draws = s.draws + 1 := rfl
@[simp] theorem ioRead_platform (s : State) (a : Word) : (ioRead s a).platform = s.platform := rfl
@[simp] theorem ioRead_readReg (s : State) (a : Word) (r : RegIdx) : (ioRead s a).readReg r = s.readReg r := rfl

@[simp] theorem ioWrite_regs (s : State) (a v : Word) : (ioWrite s a v).regs = s.regs := rfl
@[simp] theorem ioWrite_pc (s : State) (a v : Word) : (ioWrite s a v).pc = s.pc := rfl
@[simp] theorem ioWrite_mem (s : State) (a v : Word) : (ioWrite s a v).mem = s.mem := rfl
@[simp] theorem ioWrite_ioHistory (s : State) (a v : Word) :
    (ioWrite s a v).ioHistory = s.ioHistory ++ [.write a v] := rfl
@[simp] theorem ioWrite_draws (s : State) (a v : Word) : (ioWrite s a v).draws = s.draws := rfl
@[simp] theorem ioWrite_platform (s : State) (a v : Word) : (ioWrite s a v).platform = s.platform := rfl
@[simp] theorem ioWrite_readReg (s : State) (a v : Word) (r : RegIdx) : (ioWrite s a v).readReg r = s.readReg r := rfl

@[simp] theorem State.writeReg_pc (s : State) (i : RegIdx) (v : Word) : (s.writeReg i v).pc = s.pc := by
  unfold State.writeReg; split <;> rfl
@[simp] theorem State.writeReg_mem (s : State) (i : RegIdx) (v : Word) : (s.writeReg i v).mem = s.mem := by
  unfold State.writeReg; split <;> rfl
@[simp] theorem State.writeReg_ioHistory (s : State) (i : RegIdx) (v : Word) :
    (s.writeReg i v).ioHistory = s.ioHistory := by
  unfold State.writeReg; split <;> rfl
@[simp] theorem State.writeReg_draws (s : State) (i : RegIdx) (v : Word) : (s.writeReg i v).draws = s.draws := by
  unfold State.writeReg; split <;> rfl
@[simp] theorem State.writeReg_platform (s : State) (i : RegIdx) (v : Word) :
    (s.writeReg i v).platform = s.platform := by
  unfold State.writeReg; split <;> rfl

/-! Reading operands changes the count of free values at most. -/

@[simp] theorem State.afterReading_regs (s : State) (is : List RegIdx) : (s.afterReading is).regs = s.regs := by
  unfold State.afterReading; split <;> rfl
@[simp] theorem State.afterReading_pc (s : State) (is : List RegIdx) : (s.afterReading is).pc = s.pc := by
  unfold State.afterReading; split <;> rfl
@[simp] theorem State.afterReading_mem (s : State) (is : List RegIdx) : (s.afterReading is).mem = s.mem := by
  unfold State.afterReading; split <;> rfl
@[simp] theorem State.afterReading_ioHistory (s : State) (is : List RegIdx) :
    (s.afterReading is).ioHistory = s.ioHistory := by
  unfold State.afterReading; split <;> rfl
@[simp] theorem State.afterReading_platform (s : State) (is : List RegIdx) :
    (s.afterReading is).platform = s.platform := by
  unfold State.afterReading; split <;> rfl
@[simp] theorem State.afterReading_readReg (s : State) (is : List RegIdx) (r : RegIdx) :
    (s.afterReading is).readReg r = s.readReg r := by
  unfold State.afterReading; split <;> rfl
@[simp] theorem State.afterReading_r15 (s : State) (is : List RegIdx) : (s.afterReading is).r15 = s.r15 :=
  s.afterReading_readReg is 15#4
@[simp] theorem State.afterReading_nil (s : State) : s.afterReading [] = s := by
  simp [State.afterReading]
@[simp] theorem State.acceptsWrite_afterReading (s : State) (is : List RegIdx) (i : RegIdx) (v : Word) :
    (s.afterReading is).acceptsWrite i v = s.acceptsWrite i v := by
  simp [State.acceptsWrite]
@[simp] theorem nextPc_eq (s : State) : nextPc s = s.pc + 1#16 := rfl

@[simp] theorem State.load_regs (s : State) (m : List (Word × Word)) : (s.load m).regs = s.regs := rfl
@[simp] theorem State.load_pc (s : State) (m : List (Word × Word)) : (s.load m).pc = s.pc := rfl
@[simp] theorem State.load_ioHistory (s : State) (m : List (Word × Word)) : (s.load m).ioHistory = s.ioHistory := rfl
@[simp] theorem State.load_draws (s : State) (m : List (Word × Word)) : (s.load m).draws = s.draws := rfl
@[simp] theorem State.load_platform (s : State) (m : List (Word × Word)) : (s.load m).platform = s.platform := rfl
@[simp] theorem State.load_readReg (s : State) (m : List (Word × Word)) (r : RegIdx) :
    (s.load m).readReg r = s.readReg r := rfl

@[simp] theorem State.readReg_setDraws (s : State) (n : Nat) (r : RegIdx) :
    ({ s with draws := n } : State).readReg r = s.readReg r := rfl
@[simp] theorem State.readReg_setMem (s : State) (m : Memory) (r : RegIdx) :
    ({ s with mem := m } : State).readReg r = s.readReg r := rfl

end Sys2Proof.Machine
end

