-- ==== Sys2Proof/Laws/Memory.lean ====
section
/-! SUPPORT. Memory: a read after a write, and that every operation keeps the canonical form. -/

namespace Sys2Proof.Machine

theorem Memory.find_insert (m : Memory) (k j : Nat) (v : Byte) :
    Memory.find (Memory.insert m k v) j = if j = k then some v else Memory.find m j := by
  induction m with
  | nil => simp [Memory.insert, Memory.find, eq_comm]
  | cons c rest ih =>
    obtain ⟨p, b⟩ := c
    unfold Memory.insert
    split
    · simp [Memory.find, eq_comm]
    · split
      · next h =>
        subst h
        by_cases hj : j = k
        · simp [Memory.find, hj]
        · simp [Memory.find, hj, Ne.symm hj]
      · next hne =>
        simp only [Memory.find, ih]
        by_cases hp : p = j
        · subst hp; simp [Ne.symm hne]
        · simp [hp]

/-- One byte after one byte is defined. -/
theorem Memory.byteAt_insert (m : Memory) (k j : Nat) (v : Byte) :
    Memory.byteAt (Memory.insert m k v) j = if j = k then v else Memory.byteAt m j := by
  unfold Memory.byteAt
  rw [Memory.find_insert]
  split <;> rfl

/-- One byte after a word is stored. -/
theorem Memory.byteAt_writeWord (m : Memory) (a v : Word) (k : Nat) :
    Memory.byteAt (Memory.writeWord m a v) k =
      if k = highPlace a then v.extractLsb' 8 8
      else if k = lowPlace a then v.extractLsb' 0 8 else Memory.byteAt m k := by
  simp [Memory.writeWord, Memory.byteAt_insert]

theorem lowPlace_ne_highPlace (a b : Word) : lowPlace a ≠ highPlace b := by
  unfold lowPlace highPlace; omega

theorem lowPlace_inj {a b : Word} : lowPlace a = lowPlace b ↔ a = b := by
  unfold lowPlace
  constructor
  · intro h; exact BitVec.eq_of_toNat_eq (by omega)
  · rintro rfl; rfl

theorem highPlace_inj {a b : Word} : highPlace a = highPlace b ↔ a = b := by
  unfold highPlace
  constructor
  · intro h; exact BitVec.eq_of_toNat_eq (by omega)
  · rintro rfl; rfl

theorem word_halves (v : Word) : v.extractLsb' 8 8 ++ v.extractLsb' 0 8 = v := by
  apply BitVec.eq_of_getLsbD_eq
  intro i hi
  rw [BitVec.getLsbD_append, BitVec.getLsbD_extractLsb', BitVec.getLsbD_extractLsb']
  by_cases h : i < 8
  · simp [h]
  · simp [h]
    have : i - 8 < 8 := by omega
    have e : 8 + (i - 8) = i := by omega
    simp [this, e]

/-- One word after a word is stored (20_memory.md R53, R62). -/
theorem Memory.readWord_writeWord (m : Memory) (a b v : Word) :
    Memory.readWord (Memory.writeWord m a v) b = if b = a then v else Memory.readWord m b := by
  unfold Memory.readWord
  simp only [Memory.byteAt_writeWord, highPlace_inj, lowPlace_inj, lowPlace_ne_highPlace, if_false]
  split
  · exact word_halves v
  · simp [(lowPlace_ne_highPlace a b).symm]

theorem Memory.wfFrom_insert (m : Memory) (lo k : Nat) (v : Byte) (hlo : lo ≤ k) (hk : k < 131072)
    (h : Memory.wfFrom lo m = true) : Memory.wfFrom lo (Memory.insert m k v) = true := by
  induction m generalizing lo with
  | nil => simp [Memory.insert, Memory.wfFrom, hlo, hk]
  | cons c rest ih =>
    obtain ⟨p, b⟩ := c
    simp only [Memory.wfFrom, Bool.and_eq_true, decide_eq_true_eq] at h
    obtain ⟨⟨h1, h2⟩, h3⟩ := h
    unfold Memory.insert
    split
    · simp only [Memory.wfFrom, Bool.and_eq_true, decide_eq_true_eq]
      exact ⟨⟨hlo, hk⟩, ⟨⟨by omega, h2⟩, h3⟩⟩
    · split
      · next e =>
        subst e
        simp only [Memory.wfFrom, Bool.and_eq_true, decide_eq_true_eq]
        exact ⟨⟨hlo, hk⟩, h3⟩
      · simp only [Memory.wfFrom, Bool.and_eq_true, decide_eq_true_eq]
        exact ⟨⟨h1, h2⟩, ih (p + 1) (by omega) h3⟩

/-- Defining a byte inside memory keeps the canonical form. -/
theorem Memory.insert_wf (m : Memory) (k : Nat) (v : Byte) (hk : k < 131072) (h : Memory.wf m = true) :
    Memory.wf (Memory.insert m k v) = true :=
  Memory.wfFrom_insert m 0 k v (Nat.zero_le k) hk h

/-- Storing a word keeps the canonical form. -/
theorem Memory.writeWord_wf (m : Memory) (a v : Word) (h : Memory.wf m = true) :
    Memory.wf (Memory.writeWord m a v) = true := by
  have ha := a.isLt
  exact Memory.insert_wf _ _ _ (by unfold highPlace; omega)
    (Memory.insert_wf _ _ _ (by unfold lowPlace; omega) h)

theorem Memory.find_lt (m : Memory) (lo k : Nat) (h : Memory.wfFrom lo m = true) (hk : k < lo) :
    Memory.find m k = none := by
  induction m generalizing lo with
  | nil => rfl
  | cons c rest ih =>
    obtain ⟨p, b⟩ := c
    simp only [Memory.wfFrom, Bool.and_eq_true, decide_eq_true_eq] at h
    have hne : ¬ p = k := by omega
    simp only [Memory.find, hne, if_false]
    exact ih (p + 1) h.2 (by omega)

/-- Two memories in canonical form that define the same bytes are the same list. -/
theorem Memory.eq_of_find_eq (m n : Memory) (lo : Nat) (hm : Memory.wfFrom lo m = true)
    (hn : Memory.wfFrom lo n = true) (h : ∀ k, Memory.find m k = Memory.find n k) : m = n := by
  induction m generalizing n lo with
  | nil =>
    cases n with
    | nil => rfl
    | cons c rest => have := h c.1; simp [Memory.find] at this
  | cons c rest ih =>
    obtain ⟨p, b⟩ := c
    cases n with
    | nil => have := h p; simp [Memory.find] at this
    | cons d rest' =>
      obtain ⟨q, e⟩ := d
      simp only [Memory.wfFrom, Bool.and_eq_true, decide_eq_true_eq] at hm hn
      have hpq : p = q := by
        rcases Nat.lt_trichotomy p q with hlt | heq | hlt
        · have h1 := h p
          have h2 : ¬ q = p := by omega
          simp [Memory.find, h2, Memory.find_lt rest' (q + 1) p hn.2 (by omega)] at h1
        · exact heq
        · have h1 := h q
          have h2 : ¬ p = q := by omega
          simp [Memory.find, h2, Memory.find_lt rest (p + 1) q hm.2 (by omega)] at h1
      subst hpq
      have hb : b = e := by
        have := h p
        simpa [Memory.find] using this
      subst hb
      have : rest = rest' := by
        refine ih rest' (p + 1) hm.2 hn.2 fun k => ?_
        by_cases hk : p = k
        · subst hk
          rw [Memory.find_lt rest (p + 1) p hm.2 (by omega), Memory.find_lt rest' (p + 1) p hn.2 (by omega)]
        · have := h k
          simpa [Memory.find, hk] using this
      rw [this]

/-- The memory of the reset state is in canonical form. -/
theorem State.reset_mem_wf : Memory.wf State.reset.mem = true := rfl

/-- What a load answers, and when. -/
theorem memRead_eq_some (s : State) (a v : Word) :
    memRead s a = some v ↔ mapAdmits s.platform.memMap .load a = true ∧ v = Memory.readWord s.mem a := by
  unfold memRead
  constructor
  · split
    · next h => intro e; exact ⟨h, (Option.some.inj e).symm⟩
    · intro e; cases e
  · rintro ⟨h, rfl⟩; rw [if_pos h]

/-- What a store answers, and when. -/
theorem memWrite_eq_some (s t : State) (a v : Word) :
    memWrite s a v = some t ↔
      mapAdmits s.platform.memMap .store a = true ∧ t = { s with mem := Memory.writeWord s.mem a v } := by
  unfold memWrite
  constructor
  · split
    · next h => intro e; exact ⟨h, (Option.some.inj e).symm⟩
    · intro e; cases e
  · rintro ⟨h, rfl⟩; rw [if_pos h]

/-- What a fetch answers, and when. -/
theorem fetchWord_eq_some (s : State) (w : Word) :
    fetchWord s = some w ↔ mapAdmits s.platform.memMap .fetch s.pc = true ∧ w = Memory.readWord s.mem s.pc := by
  unfold fetchWord
  constructor
  · split
    · next h => intro e; exact ⟨h, (Option.some.inj e).symm⟩
    · intro e; cases e
  · rintro ⟨h, rfl⟩; rw [if_pos h]

end Sys2Proof.Machine
end

