-- ==== Sys2Proof/Laws/Registers.lean ====
section
/-! SUPPORT. What a read of a register gives after a write of one or of a pair (10_state.md R22, R25). -/

namespace Sys2Proof.Machine

theorem regIdx_pred_lt (i : RegIdx) : i.toNat - 1 < 15 := by
  have := i.isLt
  omega

theorem regIdx_pred_inj {i j : RegIdx} (hi : i ≠ 0#4) (hj : j ≠ 0#4) (h : i.toNat - 1 = j.toNat - 1) : i = j := by
  have h1 : i.toNat ≠ 0 := fun e => hi (BitVec.eq_of_toNat_eq e)
  have h2 : j.toNat ≠ 0 := fun e => hj (BitVec.eq_of_toNat_eq e)
  exact BitVec.eq_of_toNat_eq (by omega)

/-- R0 reads 0 in every state. -/
@[simp] theorem State.readReg_zero (s : State) : s.readReg 0#4 = 0#16 := rfl

/-- A write of R0 is discarded. -/
@[simp] theorem State.writeReg_zero (s : State) (v : Word) : s.writeReg 0#4 v = s := rfl

/-- Read after write, for every pair of indices. -/
theorem State.readReg_writeReg (s : State) (i j : RegIdx) (v : Word) :
    (s.writeReg i v).readReg j = if j = i ∧ j ≠ 0#4 then v else s.readReg j := by
  unfold State.writeReg State.readReg
  by_cases hi : i = 0#4
  · subst hi
    by_cases hj : j = 0#4 <;> simp [hj]
  · by_cases hj : j = 0#4
    · simp [hj]
    · simp only [hi, hj, if_false]
      by_cases hij : j = i
      · subst hij
        have := regIdx_pred_lt j
        simp [Vector.getD, this, hj]
      · have hne : ¬ i.toNat - 1 = j.toNat - 1 := fun h => hij (regIdx_pred_inj hi hj h).symm
        have hlt := regIdx_pred_lt j
        simp [Vector.getD, hlt, hne, hij]

/-- `rd + 1` is never `rd` (R26: the order of the two writes does not matter). -/
theorem secondReg_ne (rd : RegIdx) : secondReg rd ≠ rd := by
  revert rd; decide

/-- What a pair write leaves in every register. -/
theorem State.readReg_writePair (s : State) (firstOnly : Bool) (rd r : RegIdx) (v w : Word) :
    (s.writePair firstOnly rd v w).readReg r =
      if r = 0#4 then 0#16 else if r = rd then v
      else if r = secondReg rd ∧ firstOnly = false then w else s.readReg r := by
  unfold State.writePair
  by_cases h0 : r = 0#4
  · subst h0; rfl
  · cases firstOnly
    · by_cases hr : r = rd
      · subst hr
        simp [State.readReg_writeReg, h0, (secondReg_ne r).symm]
      · simp [State.readReg_writeReg, h0, hr]
    · simp [State.readReg_writeReg, h0]

@[simp] theorem State.writePair_pc (s : State) (b : Bool) (rd : RegIdx) (v w : Word) :
    (s.writePair b rd v w).pc = s.pc := by
  unfold State.writePair; split <;> simp
@[simp] theorem State.writePair_mem (s : State) (b : Bool) (rd : RegIdx) (v w : Word) :
    (s.writePair b rd v w).mem = s.mem := by
  unfold State.writePair; split <;> simp
@[simp] theorem State.writePair_ioHistory (s : State) (b : Bool) (rd : RegIdx) (v w : Word) :
    (s.writePair b rd v w).ioHistory = s.ioHistory := by
  unfold State.writePair; split <;> simp
@[simp] theorem State.writePair_draws (s : State) (b : Bool) (rd : RegIdx) (v w : Word) :
    (s.writePair b rd v w).draws = s.draws := by
  unfold State.writePair; split <;> simp
@[simp] theorem State.writePair_platform (s : State) (b : Bool) (rd : RegIdx) (v w : Word) :
    (s.writePair b rd v w).platform = s.platform := by
  unfold State.writePair; split <;> simp

/-! Operands (10_state.md R34): where R15 is storage, an operand is the register's content and every write is accepted. -/

/-- A register other than R15 is read as it is on every platform. -/
theorem State.operand_of_ne (s : State) (slot : Nat) {i : RegIdx} (h : i ≠ 15#4) : s.operand slot i = s.readReg i := by
  simp [State.operand, h]

theorem State.operand_of_storage {s : State} (h : s.platform.r15Undoc = .storage) (slot : Nat) (i : RegIdx) :
    s.operand slot i = s.readReg i := by
  simp [State.operand, h]

theorem State.afterReading_of_storage {s : State} (h : s.platform.r15Undoc = .storage) (is : List RegIdx) :
    s.afterReading is = s := by
  simp [State.afterReading, h]

theorem State.acceptsWrite_of_storage {s : State} (h : s.platform.r15Undoc = .storage) (i : RegIdx) (v : Word) :
    s.acceptsWrite i v = true := by
  simp [State.acceptsWrite, h]

theorem State.acceptsWrite_of_ne (s : State) {i : RegIdx} (h : i ≠ 15#4) (v : Word) : s.acceptsWrite i v = true := by
  simp [State.acceptsWrite, h]

end Sys2Proof.Machine
end

