-- ==== Sys2Proof/Laws/Meanings.lean ====
section
/-! SUPPORT. What each shared operation of the meanings can do, said once: if it answers a next state, that state is one
of these. And the frames those states have, in the words of Safety. -/

namespace Sys2Proof.Machine

/-! Frames. -/

theorem afterReading_keeps (s : State) (reads : List RegIdx) : KeepsRest reads s (s.afterReading reads) := by
  refine ⟨fun k => ?_, ?_, rfl, ?_⟩ <;> simp

/-- Writing one register and pc after the operands are read. -/
theorem write_frame (s : State) (reads : List RegIdx) (rd : RegIdx) (v t : Word) :
    WritesReg rd v s (((s.afterReading reads).writeReg rd v).jumpTo t) ∧
    KeepsRest reads s (((s.afterReading reads).writeReg rd v).jumpTo t) := by
  refine ⟨fun r => ?_, fun k => ?_, ?_, ?_, ?_⟩ <;> simp [State.readReg_writeReg]

/-- Writing a pair of registers and going on after the operands are read. -/
theorem writePair_frame (s : State) (reads : List RegIdx) (rd : RegIdx) (v w : Word) :
    WritesRegPair rd v w s ((s.afterReading reads).writePair false rd v w).advance ∧
    KeepsRest reads s ((s.afterReading reads).writePair false rd v w).advance := by
  refine ⟨fun r => ?_, fun k => ?_, ?_, ?_, ?_⟩ <;> simp [State.readReg_writePair, secondReg]

/-- Writing the first of a pair only. -/
theorem writeFirst_frame (s : State) (reads : List RegIdx) (rd : RegIdx) (v w : Word) :
    WritesReg rd v s ((s.afterReading reads).writePair true rd v w).advance ∧
    KeepsRest reads s ((s.afterReading reads).writePair true rd v w).advance := by
  refine ⟨fun r => ?_, fun k => ?_, ?_, ?_, ?_⟩ <;> simp [State.writePair, State.readReg_writeReg]

theorem jumpTo_frame (s : State) (reads : List RegIdx) (t : Word) :
    KeepsRegs s ((s.afterReading reads).jumpTo t) ∧ KeepsRest reads s ((s.afterReading reads).jumpTo t) := by
  refine ⟨fun r => ?_, fun k => ?_, ?_, ?_, ?_⟩ <;> simp

theorem advance_frame (s : State) (reads : List RegIdx) :
    KeepsRegs s (s.afterReading reads).advance ∧ KeepsRest reads s (s.afterReading reads).advance := by
  refine ⟨fun r => ?_, fun k => ?_, ?_, ?_, ?_⟩ <;> simp

/-! What each operation answers, one lemma an operation. -/

/-- Raising a fault answers no next state and no refusal. -/
theorem raise_eq (why : Word → Fault) (s : State) : raise why s = .fault (why s.pc) := rfl

theorem writeAndJump_of_accepts {rd : RegIdx} {v t : Word} {s : State} (h : s.acceptsWrite rd v = true) :
    writeAndJump rd v t s = .next ((s.writeReg rd v).jumpTo t) := by
  simp [writeAndJump, h]

theorem writeAndJump_next {rd : RegIdx} {v p : Word} {s t : State} (h : writeAndJump rd v p s = .next t) :
    s.acceptsWrite rd v = true ∧ t = (s.writeReg rd v).jumpTo p := by
  unfold writeAndJump at h
  split at h
  · next a => cases h; exact ⟨a, rfl⟩
  · cases h

theorem writePairAndAdvance_of_accepts {b : Bool} {rd : RegIdx} {v w : Word} {s : State}
    (h : s.acceptsWrite rd v = true) (h' : b = true ∨ s.acceptsWrite (secondReg rd) w = true) :
    writePairAndAdvance b rd v w s = .next (s.writePair b rd v w).advance := by
  rcases h' with rfl | h' <;> simp [writePairAndAdvance, *]

theorem writePairAndAdvance_next {b : Bool} {rd : RegIdx} {v w : Word} {s t : State}
    (h : writePairAndAdvance b rd v w s = .next t) :
    s.acceptsWrite rd v = true ∧ (b = true ∨ s.acceptsWrite (secondReg rd) w = true) ∧
      t = (s.writePair b rd v w).advance := by
  unfold writePairAndAdvance at h
  split at h
  · next a =>
    simp only [Bool.and_eq_true, Bool.or_eq_true] at a
    cases h
    exact ⟨a.1, a.2, rfl⟩
  · cases h

theorem unary_next {f : Word → Word} {rd rs : RegIdx} {s t : State} (h : unary f rd rs s = .next t) :
    s.acceptsWrite rd (f (s.operandA rs)) = true ∧
    t = ((s.afterReading [rs]).writeReg rd (f (s.operandA rs))).jumpTo (s.pc + 1#16) := by
  simpa using writeAndJump_next h

theorem unary_of_accepts {f : Word → Word} {rd rs : RegIdx} {s : State}
    (h : s.acceptsWrite rd (f (s.operandA rs)) = true) :
    unary f rd rs s = .next (((s.afterReading [rs]).writeReg rd (f (s.operandA rs))).jumpTo (s.pc + 1#16)) := by
  simp [unary, writeAndAdvance, writeAndJump, h]

theorem binary_next {f : Word → Word → Word} {rd rs1 rs2 : RegIdx} {s t : State}
    (h : binary f rd rs1 rs2 s = .next t) :
    s.acceptsWrite rd (f (s.operandA rs1) (s.operandB rs2)) = true ∧
    t = ((s.afterReading [rs1, rs2]).writeReg rd (f (s.operandA rs1) (s.operandB rs2))).jumpTo (s.pc + 1#16) := by
  simpa using writeAndJump_next h

theorem binary_of_accepts {f : Word → Word → Word} {rd rs1 rs2 : RegIdx} {s : State}
    (h : s.acceptsWrite rd (f (s.operandA rs1) (s.operandB rs2)) = true) :
    binary f rd rs1 rs2 s =
      .next (((s.afterReading [rs1, rs2]).writeReg rd (f (s.operandA rs1) (s.operandB rs2))).jumpTo (s.pc + 1#16)) := by
  simp [binary, writeAndAdvance, writeAndJump, h]

theorem compare_next {signed : Bool} {a b : Word} {s t : State} (h : compare signed a b s = .next t) :
    t = (s.writeReg 15#4 (withFlags s.r15 (greater signed a b) (decide (a = b)))).advance := by
  unfold compare at h
  cases h
  rfl

/-- A branch goes to its target where its condition holds, on where it does not, and answers nothing else. -/
theorem branch_next {fib : BitVec 5} {target : Word} {s t : State} (h : branch fib target s = .next t) :
    (condition (condCode fib) s.flagG s.flagE = some true ∧ t = s.jumpTo target) ∨
    (condition (condCode fib) s.flagG s.flagE = some false ∧ t = s.advance) := by
  unfold branch at h
  split at h
  · cases h
  · next e => cases h; exact .inl ⟨e, rfl⟩
  · next e => cases h; exact .inr ⟨e, rfl⟩

/-- A divide that answers a next state has a divisor that is not zero, or draws its results. -/
theorem divide_next {signed quotientOnly : Bool} {rd rs1 rs2 : RegIdx} {s t : State}
    (h : divide signed quotientOnly rd rs1 rs2 s = .next t) :
    (s.operandB rs2 ≠ 0#16 ∧
      writePairAndAdvance quotientOnly rd (quotient signed (s.operandA rs1) (s.operandB rs2))
        (remainder signed (s.operandA rs1) (s.operandB rs2)) (s.afterReading [rs1, rs2]) = .next t) ∨
    (s.operandB rs2 = 0#16 ∧ s.platform.divByZero = .anyValue ∧
      divideByZero quotientOnly rd (s.afterReading [rs1, rs2]) = .next t) := by
  unfold divide at h
  dsimp only at h
  split at h
  · next e =>
    refine .inr ⟨e, ?_, h⟩
    unfold divideByZero at h
    split at h
    · cases h
    · next p => simpa using p
  · next e => exact .inl ⟨e, h⟩

theorem execLdr_next {rd rs1 : RegIdx} {s t : State} (h : execLdr rd rs1 s = .next t) :
    mapAdmits s.platform.memMap .load (s.operandA rs1) = true ∧
    s.acceptsWrite rd (Memory.readWord s.mem (s.operandA rs1)) = true ∧
    t = ((s.afterReading [rs1]).writeReg rd (Memory.readWord s.mem (s.operandA rs1))).jumpTo (s.pc + 1#16) := by
  unfold execLdr at h
  split at h
  · next v e =>
    obtain ⟨ha, rfl⟩ := (memRead_eq_some _ _ _).1 e
    exact ⟨ha, by simpa using writeAndJump_next h⟩
  · cases h

theorem execStr_next {rd rs1 : RegIdx} {s t : State} (h : execStr rd rs1 s = .next t) :
    mapAdmits s.platform.memMap .store (s.operandA rd) = true ∧
    t = (State.afterReading { s with mem := Memory.writeWord s.mem (s.operandA rd) (s.operandB rs1) }
      [rd, rs1]).advance := by
  unfold execStr at h
  split at h
  · next u e =>
    obtain ⟨ha, rfl⟩ := (memWrite_eq_some _ _ _ _).1 e
    cases h
    exact ⟨ha, rfl⟩
  · cases h

/-! The flags a compare writes. -/

/-- Bit by bit, what a compare leaves in R15 (41_control_flow.md R113). -/
theorem withFlags_getLsbD (r15 : Word) (g e : Bool) (b : Nat) :
    (withFlags r15 g e).getLsbD b = if b = 5 then g else if b = 4 then e else r15.getLsbD b := by
  unfold withFlags
  by_cases hb : b < 16
  · simp only [BitVec.getLsbD_append, BitVec.getLsbD_extractLsb']
    interval_cases b <;> cases g <;> cases e <;> simp
  · have h5 : ¬ b = 5 := by omega
    have h4 : ¬ b = 4 := by omega
    rw [BitVec.getLsbD_of_ge _ _ (by omega), BitVec.getLsbD_of_ge _ _ (by omega)]
    simp [h5, h4]

theorem compare_frame (s : State) (g e : Bool) :
    WritesFlags g e s (s.writeReg 15#4 (withFlags s.r15 g e)).advance := by
  refine ⟨fun r hr => by simp [State.readReg_writeReg, hr], fun b => ?_⟩
  have h : (s.writeReg 15#4 (withFlags s.r15 g e)).advance.readReg 15#4 = withFlags s.r15 g e := by
    simp [State.readReg_writeReg]
  rw [h, withFlags_getLsbD]
  rfl

end Sys2Proof.Machine
end

