-- ==== Sys2Proof/Laws/PerInstr.lean ====
section
/-! SUPPORT. One statement an instruction: the word the encoder makes has the bits spec/opcode_table.json fixes for the
instruction's row (30_encoding.md R80, R90). -/

namespace Sys2Proof.Laws.FixedBits

/-- The `mask` and `match` of the instruction's row of spec/opcode_table.json. -/
def row : Instr → Word × Word
  | .ldr _ _ => (0xFE00#16, 0x2000#16)
  | .ldrIo _ _ => (0xFE00#16, 0x2200#16)
  | .str _ _ => (0xFE00#16, 0x2400#16)
  | .strIo _ _ => (0xFE00#16, 0x2600#16)
  | .jmr _ _ _ => (0xFC00#16, 0x2800#16)
  | .jmi _ _ => (0xFC00#16, 0x2C00#16)
  | .anr _ _ _ => (0xF000#16, 0x3000#16)
  | .ani _ _ => (0xF000#16, 0x4000#16)
  | .msi _ _ => (0xF000#16, 0x5000#16)
  | .mhi _ _ => (0xF000#16, 0x6000#16)
  | .slr _ _ _ => (0xF000#16, 0x7000#16)
  | .sar _ _ _ => (0xF000#16, 0x8000#16)
  | .adr _ _ _ => (0xF000#16, 0x9000#16)
  | .sur _ _ _ => (0xF000#16, 0xA000#16)
  | .adi _ _ => (0xF000#16, 0xB000#16)
  | .sui _ _ => (0xF000#16, 0xC000#16)
  | .mul _ _ _ => (0xF000#16, 0xD000#16)
  | .div _ _ _ => (0xF000#16, 0xE000#16)
  | .cmr _ _ => (0xFE00#16, 0xF000#16)
  | .cmi _ _ => (0xFE00#16, 0xF200#16)
  | .brc _ _ => (0xFE00#16, 0xF400#16)
  | .brr _ _ => (0xFE00#16, 0xF600#16)
  | .shi _ _ _ => (0xFC00#16, 0xF800#16)
  | .ntr _ _ _ => (0xFE00#16, 0xFC00#16)
  | .ntd _ _ => (0xFE00#16, 0xFE00#16)
  | .anir _ _ _ => (0xF000#16, 0x4000#16)
  | .msiShadow _ _ => (0xF000#16, 0x5000#16)
  | .adir _ _ _ => (0xF000#16, 0xB000#16)
  | .suir _ _ _ => (0xF000#16, 0xC000#16)
  | .muls _ _ _ => (0xF000#16, 0xD000#16)
  | .mull _ _ _ => (0xF000#16, 0xD000#16)
  | .divs _ _ _ => (0xF000#16, 0xE000#16)
  | .divq _ _ _ => (0xF000#16, 0xE000#16)
  | .cmrs _ _ => (0xFE00#16, 0xF000#16)
  | .cmis _ _ => (0xFE00#16, 0xF200#16)
  | .reserved0 _ => (0xF000#16, 0x0000#16)
  | .reserved1 _ => (0xF000#16, 0x1000#16)

/-- The encoder sets every bit the row fixes as the row fixes it. -/
def Statement (i : Instr) : Prop := encode i &&& (row i).1 = (row i).2

/-- Two words are equal when their sixteen bits are. -/
theorem word_ext {v w : Word} (h : ∀ b, b < 16 → v.getLsbD b = w.getLsbD b) : v = w :=
  BitVec.eq_of_getLsbD_eq h

theorem encRRR_fixed (op : BitVec 4) (a b c : RegIdx) : encRRR op a b c &&& 0xF000#16 = op ++ 0#12 := by
  refine word_ext fun i hi => ?_
  simp only [encRRR, BitVec.getLsbD_and, BitVec.getLsbD_append]
  interval_cases i <;> simp

theorem encRI8_fixed (op : BitVec 4) (a : BitVec 8) (c : RegIdx) : encRI8 op a c &&& 0xF000#16 = op ++ 0#12 := by
  refine word_ext fun i hi => ?_
  simp only [encRI8, BitVec.getLsbD_and, BitVec.getLsbD_append]
  interval_cases i <;> simp

theorem encRI4_fixed (op a : BitVec 4) (b c : RegIdx) : encRI4 op a b c &&& 0xF000#16 = op ++ 0#12 :=
  encRRR_fixed op a b c

theorem encXR_fixed (op : BitVec 4) (ext : BitVec 2) (opt : Bool) (b c : RegIdx) :
    encXR op ext opt b c &&& 0xFE00#16 = op ++ ext ++ BitVec.ofBool opt ++ 0#9 := by
  refine word_ext fun i hi => ?_
  simp only [encXR, BitVec.getLsbD_and, BitVec.getLsbD_append]
  interval_cases i <;> simp

theorem encXR_fixedExt (op : BitVec 4) (ext : BitVec 2) (opt : Bool) (b c : RegIdx) :
    encXR op ext opt b c &&& 0xFC00#16 = op ++ ext ++ 0#10 := by
  refine word_ext fun i hi => ?_
  simp only [encXR, BitVec.getLsbD_and, BitVec.getLsbD_append]
  interval_cases i <;> simp

theorem encJ6_fixed (a : BitVec 6) (c : RegIdx) : encJ6 a c &&& 0xFC00#16 = 0x2C00#16 := by
  refine word_ext fun i hi => ?_
  simp only [encJ6, BitVec.getLsbD_and, BitVec.getLsbD_append]
  interval_cases i <;> simp

theorem encX5_fixed (ext : BitVec 2) (opt : Bool) (a : BitVec 5) (c : RegIdx) :
    encX5 ext opt a c &&& 0xFE00#16 = 0b1111#4 ++ ext ++ BitVec.ofBool opt ++ 0#9 := by
  refine word_ext fun i hi => ?_
  simp only [encX5, BitVec.getLsbD_and, BitVec.getLsbD_append]
  interval_cases i <;> simp

theorem encX5_fixedExt (ext : BitVec 2) (opt : Bool) (a : BitVec 5) (c : RegIdx) :
    encX5 ext opt a c &&& 0xFC00#16 = 0b1111#4 ++ ext ++ 0#10 := by
  refine word_ext fun i hi => ?_
  simp only [encX5, BitVec.getLsbD_and, BitVec.getLsbD_append]
  interval_cases i <;> simp

theorem encN_fixed (d c : Bool) (a b : RegIdx) :
    encN d c a b &&& 0xFE00#16 = 0b1111#4 ++ 0b11#2 ++ BitVec.ofBool d ++ 0#9 := by
  refine word_ext fun i hi => ?_
  simp only [encN, BitVec.getLsbD_and, BitVec.getLsbD_append]
  interval_cases i <;> simp

theorem reserved_fixed (op : BitVec 4) (low : BitVec 12) : (op ++ low : Word) &&& 0xF000#16 = op ++ 0#12 := by
  refine word_ext fun i hi => ?_
  simp only [BitVec.getLsbD_and, BitVec.getLsbD_append]
  interval_cases i <;> simp

theorem ldr (rd rs1 : RegIdx) : Statement (.ldr rd rs1) := encXR_fixed ..
theorem ldrIo (rd rs1 : RegIdx) : Statement (.ldrIo rd rs1) := encXR_fixed ..
theorem str (rd rs1 : RegIdx) : Statement (.str rd rs1) := encXR_fixed ..
theorem strIo (rd rs1 : RegIdx) : Statement (.strIo rd rs1) := encXR_fixed ..
theorem jmr (s : Bool) (rd rs1 : RegIdx) : Statement (.jmr s rd rs1) := encXR_fixedExt ..
theorem jmi (rd : RegIdx) (imm6 : BitVec 6) : Statement (.jmi rd imm6) := encJ6_fixed ..
theorem anr (rd rs1 rs2 : RegIdx) : Statement (.anr rd rs1 rs2) := encRRR_fixed ..
theorem ani (rd : RegIdx) (imm8 : BitVec 8) : Statement (.ani rd imm8) := encRI8_fixed ..
theorem msi (rd : RegIdx) (imm8 : BitVec 8) : Statement (.msi rd imm8) := encRI8_fixed ..
theorem mhi (rd : RegIdx) (imm8 : BitVec 8) : Statement (.mhi rd imm8) := encRI8_fixed ..
theorem slr (rd rs1 rs2 : RegIdx) : Statement (.slr rd rs1 rs2) := encRRR_fixed ..
theorem sar (rd rs1 rs2 : RegIdx) : Statement (.sar rd rs1 rs2) := encRRR_fixed ..
theorem adr (rd rs1 rs2 : RegIdx) : Statement (.adr rd rs1 rs2) := encRRR_fixed ..
theorem sur (rd rs1 rs2 : RegIdx) : Statement (.sur rd rs1 rs2) := encRRR_fixed ..
theorem adi (rd : RegIdx) (imm8 : BitVec 8) : Statement (.adi rd imm8) := encRI8_fixed ..
theorem sui (rd : RegIdx) (imm8 : BitVec 8) : Statement (.sui rd imm8) := encRI8_fixed ..
theorem mul (rd rs1 rs2 : RegIdx) : Statement (.mul rd rs1 rs2) := encRRR_fixed ..
theorem div (rd rs1 rs2 : RegIdx) : Statement (.div rd rs1 rs2) := encRRR_fixed ..
theorem cmr (rs1 rd : RegIdx) : Statement (.cmr rs1 rd) := encXR_fixed ..
theorem cmi (imm5 : BitVec 5) (rd : RegIdx) : Statement (.cmi imm5 rd) := encX5_fixed ..
theorem brc (fib : BitVec 5) (rd : RegIdx) : Statement (.brc fib rd) := encX5_fixed ..
theorem brr (fib : BitVec 5) (rd : RegIdx) : Statement (.brr fib rd) := encX5_fixed ..
theorem shi (la : Bool) (rd : RegIdx) (shim : BitVec 5) : Statement (.shi la rd shim) := encX5_fixedExt ..
theorem ntr (c : Bool) (rd rs1 : RegIdx) : Statement (.ntr c rd rs1) := encN_fixed ..
theorem ntd (c : Bool) (rd : RegIdx) : Statement (.ntd c rd) := encN_fixed ..
theorem anir (rd rs1 : RegIdx) (imm4 : BitVec 4) : Statement (.anir rd rs1 imm4) := encRI4_fixed ..
theorem msiShadow (rd : RegIdx) (imm8 : BitVec 8) : Statement (.msiShadow rd imm8) := encRI8_fixed ..
theorem adir (rd rs1 : RegIdx) (imm4 : BitVec 4) : Statement (.adir rd rs1 imm4) := encRI4_fixed ..
theorem suir (rd rs1 : RegIdx) (imm4 : BitVec 4) : Statement (.suir rd rs1 imm4) := encRI4_fixed ..
theorem muls (rd rs1 rs2 : RegIdx) : Statement (.muls rd rs1 rs2) := encRRR_fixed ..
theorem mull (rd rs1 rs2 : RegIdx) : Statement (.mull rd rs1 rs2) := encRRR_fixed ..
theorem divs (rd rs1 rs2 : RegIdx) : Statement (.divs rd rs1 rs2) := encRRR_fixed ..
theorem divq (rd rs1 rs2 : RegIdx) : Statement (.divq rd rs1 rs2) := encRRR_fixed ..
theorem cmrs (rs1 rd : RegIdx) : Statement (.cmrs rs1 rd) := encXR_fixed ..
theorem cmis (imm5 : BitVec 5) (rd : RegIdx) : Statement (.cmis imm5 rd) := encX5_fixed ..
theorem reserved0 (low : BitVec 12) : Statement (.reserved0 low) := reserved_fixed ..
theorem reserved1 (low : BitVec 12) : Statement (.reserved1 low) := reserved_fixed ..

end Sys2Proof.Laws.FixedBits
end

