-- ==== Sys2Proof/Tests/Slice0.lean ====
section
/-! SUPPORT. The model's own tests. Expected values are the spec's: the encodings of 30_encoding.md R80 written out bit by
bit, and the vectors of 95_test_vectors.md (section named at each group). Each runs one step or less. -/

namespace Sys2Proof.Tests

open Sys2Proof.Machine

/-- pc = 0x0100, the registers given, every other register 0, memory undefined. -/
def testState (regs : List (RegIdx × Word)) : State :=
  regs.foldl (fun s p => s.writeReg p.1 p.2) { State.reset with pc := 0x0100#16 }

/-- The state with a word of memory. -/
def withWord (a v : Word) (s : State) : State := { s with mem := Memory.writeWord s.mem a v }

/-- What `f` reads from the next state, if the step on the instruction word `w` answers one. -/
def after {α : Type} (w : Nat) (s : State) (f : State → α) : Option α :=
  match step (s.withFetchWord 16 w) with
  | .next t => some (f t)
  | .fault _ => none
  | .refused _ => none

/-- The fault of the step on the instruction word `w`, if it faults. -/
def faultOf (w : Nat) (s : State) : Option Fault :=
  match step (s.withFetchWord 16 w) with
  | .next _ => none
  | .fault f => some f
  | .refused _ => none

/-- A platform that admits no access to memory. -/
def closedPlatform : Platform := { defaultPlatform with memMap := [] }

/-- A platform that admits every access to the word at 0x0100 and none elsewhere; SLR and SAR amounts are in two's
complement, a division by zero faults, and bits no field covers must be 0. -/
def narrowPlatform : Platform :=
  { memMap := [{ first := 0x0100#16, last := 0x0100#16, fetch := true, load := true, store := true }],
    regShiftFormat := .twosComplement, divByZero := .fault, ignoredBits := .mustBeZero, r15Undoc := .storage }

/-- `testState` on that platform. -/
def narrowState (regs : List (RegIdx × Word)) : State := { testState regs with platform := narrowPlatform }

/-- The default platform but for a volatile R15 and a division by zero that completes. -/
def volatilePlatform : Platform := { defaultPlatform with r15Undoc := .volatile, divByZero := .anyValue }

/-- `testState` on that platform. -/
def volatileState (regs : List (RegIdx × Word)) : State := { testState regs with platform := volatilePlatform }

/-! ## Well-formedness: an ill-formed term for each check -/

theorem test_wf_refuses_reserved0 : (Instr.reserved0 0x000#12).wellFormed = false := by decide
theorem test_wf_refuses_reserved1 : (Instr.reserved1 0xFFF#12).wellFormed = false := by decide
theorem test_wf_refuses_condition_110 : (Instr.brc 0b00110#5 2#4).wellFormed = false := by decide
theorem test_wf_refuses_condition_111 : (Instr.brr 0b11111#5 2#4).wellFormed = false := by decide
theorem test_wf_admits_condition_101 : (Instr.brc 0b11101#5 2#4).wellFormed = true := by decide

/-! ## Decoding, one word a row, written out from 30_encoding.md R80 -/

theorem test_decode_ldr : decode 0x0000#16 0b0010000000100011#16 = .ldr 3#4 2#4 ∧ encode (.ldr 3#4 2#4) = 0b0010000000100011#16 := by decide
theorem test_decode_ldrIo : decode 0x0000#16 0b0010001000100011#16 = .ldrIo 3#4 2#4 ∧ encode (.ldrIo 3#4 2#4) = 0b0010001000100011#16 := by decide
theorem test_decode_str : decode 0x0000#16 0b0010010000100011#16 = .str 3#4 2#4 ∧ encode (.str 3#4 2#4) = 0b0010010000100011#16 := by decide
theorem test_decode_strIo : decode 0x0000#16 0b0010011000100011#16 = .strIo 3#4 2#4 ∧ encode (.strIo 3#4 2#4) = 0b0010011000100011#16 := by decide
theorem test_decode_jmr : decode 0x0000#16 0b0010101000100011#16 = .jmr true 3#4 2#4 ∧ encode (.jmr true 3#4 2#4) = 0b0010101000100011#16 := by decide
theorem test_decode_jmi : decode 0x0000#16 0b0010111000000011#16 = .jmi 3#4 0b100000#6 ∧ encode (.jmi 3#4 0b100000#6) = 0b0010111000000011#16 := by decide
theorem test_decode_anr : decode 0x0000#16 0b0011001000110101#16 = .anr 5#4 3#4 2#4 ∧ encode (.anr 5#4 3#4 2#4) = 0b0011001000110101#16 := by decide
theorem test_decode_ani : decode 0x7FFF#16 0b0100111110100101#16 = .ani 5#4 0xFA#8 ∧ encode (.ani 5#4 0xFA#8) = 0b0100111110100101#16 := by decide
theorem test_decode_msi : decode 0xBFFF#16 0b0101011001000101#16 = .msi 5#4 100#8 ∧ encode (.msi 5#4 100#8) = 0b0101011001000101#16 := by decide
theorem test_decode_mhi : decode 0xFFFF#16 0b0110011001000101#16 = .mhi 5#4 100#8 ∧ encode (.mhi 5#4 100#8) = 0b0110011001000101#16 := by decide
theorem test_decode_slr : decode 0x0000#16 0b0111001100100101#16 = .slr 5#4 2#4 3#4 ∧ encode (.slr 5#4 2#4 3#4) = 0b0111001100100101#16 := by decide
theorem test_decode_sar : decode 0x0000#16 0b1000001100100101#16 = .sar 5#4 2#4 3#4 ∧ encode (.sar 5#4 2#4 3#4) = 0b1000001100100101#16 := by decide
theorem test_decode_adr : decode 0x0000#16 0b1001001100100101#16 = .adr 5#4 2#4 3#4 ∧ encode (.adr 5#4 2#4 3#4) = 0b1001001100100101#16 := by decide
theorem test_decode_sur : decode 0x0000#16 0b1010001100100101#16 = .sur 5#4 2#4 3#4 ∧ encode (.sur 5#4 2#4 3#4) = 0b1010001100100101#16 := by decide
theorem test_decode_adi : decode 0x7FFF#16 0b1011100101100101#16 = .adi 5#4 0x96#8 ∧ encode (.adi 5#4 0x96#8) = 0b1011100101100101#16 := by decide
theorem test_decode_sui : decode 0x7FFF#16 0b1100100101100101#16 = .sui 5#4 0x96#8 ∧ encode (.sui 5#4 0x96#8) = 0b1100100101100101#16 := by decide
theorem test_decode_mul : decode 0xCFFF#16 0b1101001000110101#16 = .mul 5#4 3#4 2#4 ∧ encode (.mul 5#4 3#4 2#4) = 0b1101001000110101#16 := by decide
theorem test_decode_div : decode 0xE7FF#16 0b1110001000110101#16 = .div 5#4 3#4 2#4 ∧ encode (.div 5#4 3#4 2#4) = 0b1110001000110101#16 := by decide
theorem test_decode_cmr : decode 0xFBFF#16 0b1111000000110010#16 = .cmr 3#4 2#4 ∧ encode (.cmr 3#4 2#4) = 0b1111000000110010#16 := by decide
theorem test_decode_cmi : decode 0xFBFF#16 0b1111001111100010#16 = .cmi 0b11110#5 2#4 ∧ encode (.cmi 0b11110#5 2#4) = 0b1111001111100010#16 := by decide
theorem test_decode_brc : decode 0x0000#16 0b1111010000010010#16 = .brc 0b00001#5 2#4 ∧ encode (.brc 0b00001#5 2#4) = 0b1111010000010010#16 := by decide
theorem test_decode_brr : decode 0x0000#16 0b1111011000010010#16 = .brr 0b00001#5 2#4 ∧ encode (.brr 0b00001#5 2#4) = 0b1111011000010010#16 := by decide
theorem test_decode_shi : decode 0x0000#16 0b1111101100110101#16 = .shi true 5#4 0b10011#5 ∧ encode (.shi true 5#4 0b10011#5) = 0b1111101100110101#16 := by decide
theorem test_decode_ntr : decode 0x0000#16 0b1111110100100101#16 = .ntr true 5#4 2#4 ∧ encode (.ntr true 5#4 2#4) = 0b1111110100100101#16 := by decide
theorem test_decode_ntd : decode 0x0000#16 0b1111111100000101#16 = .ntd true 5#4 ∧ encode (.ntd true 5#4) = 0b1111111100000101#16 := by decide
theorem test_decode_anir : decode 0x8000#16 0b0100001000010101#16 = .anir 5#4 1#4 2#4 ∧ encode (.anir 5#4 1#4 2#4) = 0b0100001000010101#16 := by decide
theorem test_decode_msiShadow : decode 0x4000#16 0b0101011001000101#16 = .msiShadow 5#4 100#8 ∧ encode (.msiShadow 5#4 100#8) = 0b0101011001000101#16 := by decide
theorem test_decode_adir : decode 0x8000#16 0b1011001000010101#16 = .adir 5#4 1#4 2#4 ∧ encode (.adir 5#4 1#4 2#4) = 0b1011001000010101#16 := by decide
theorem test_decode_suir : decode 0x8000#16 0b1100001000010101#16 = .suir 5#4 1#4 2#4 ∧ encode (.suir 5#4 1#4 2#4) = 0b1100001000010101#16 := by decide
theorem test_decode_muls : decode 0x1000#16 0b1101001000110101#16 = .muls 5#4 3#4 2#4 ∧ encode (.muls 5#4 3#4 2#4) = 0b1101001000110101#16 := by decide
theorem test_decode_mull : decode 0x3000#16 0b1101001000110101#16 = .mull 5#4 3#4 2#4 ∧ encode (.mull 5#4 3#4 2#4) = 0b1101001000110101#16 := by decide
theorem test_decode_divs : decode 0x1000#16 0b1110001000110101#16 = .divs 5#4 3#4 2#4 ∧ encode (.divs 5#4 3#4 2#4) = 0b1110001000110101#16 := by decide
theorem test_decode_divq : decode 0x1800#16 0b1110001000110101#16 = .divq 5#4 3#4 2#4 ∧ encode (.divq 5#4 3#4 2#4) = 0b1110001000110101#16 := by decide
theorem test_decode_cmrs : decode 0x0400#16 0b1111000000110010#16 = .cmrs 3#4 2#4 ∧ encode (.cmrs 3#4 2#4) = 0b1111000000110010#16 := by decide
theorem test_decode_cmis : decode 0x0400#16 0b1111001111100010#16 = .cmis 0b11110#5 2#4 ∧ encode (.cmis 0b11110#5 2#4) = 0b1111001111100010#16 := by decide
theorem test_decode_reserved0 : decode 0x0000#16 0b0000000000000000#16 = .reserved0 0x000#12 ∧ encode (.reserved0 0x000#12) = 0b0000000000000000#16 := by decide
theorem test_decode_reserved1 : decode 0x0000#16 0b0001111111111111#16 = .reserved1 0xFFF#12 ∧ encode (.reserved1 0xFFF#12) = 0b0001111111111111#16 := by decide

/-- Bits no field covers are ignored (R85): IR[8] of LDR and CMR, IR[7:4] of NTD. -/
theorem test_decode_ignored_bits :
    decode 0x0000#16 0x2123#16 = .ldr 3#4 2#4 ∧ decode 0x0000#16 0xF132#16 = .cmr 3#4 2#4 ∧
    decode 0x0000#16 0xFEF5#16 = .ntd false 5#4 := by decide

/-- The base rows that are no reserved row, as (mask, match) of the table: no word matches two of them. -/
theorem test_rows_do_not_overlap :
    [(0xFE00#16, 0x2000#16), (0xFE00#16, 0x2200#16), (0xFE00#16, 0x2400#16), (0xFE00#16, 0x2600#16),
     (0xFC00#16, 0x2800#16), (0xFC00#16, 0x2C00#16), (0xFE00#16, 0xF000#16), (0xFE00#16, 0xF200#16),
     (0xFE00#16, 0xF400#16), (0xFE00#16, 0xF600#16), (0xFC00#16, 0xF800#16), (0xFE00#16, 0xFC00#16),
     (0xFE00#16, 0xFE00#16)].Pairwise (fun a b => a.2 &&& (a.1 &&& b.1) ≠ b.2 &&& (a.1 &&& b.1)) := by decide

/-! ## The host's names -/

theorem test_decodeTableWord : decodeTableWord 16 0xD235 = some (.mul 5#4 3#4 2#4) := by decide
theorem test_decodeTableWord_wide : decodeTableWord 17 0x1D235 = none := by decide
theorem test_first_step_after_reset :
    (match step (State.reset.withFetchWord 16 0xD235) with | .next _ => true | _ => false) = true := by decide


/-! ## Data transfer (95, 2.1) -/

theorem test_ldr_loads :
    after 0x2023 (withWord 0x0300 0xBEEF (testState [(2, 0x0300), (3, 0)])) (fun t => (t.readReg 3, t.pc)) = some (0xBEEF, 0x0101) := by decide
theorem test_ldr_own_word :
    after 0x2022 (testState [(2, 0x0100)]) (fun t => t.readReg 2) = some 0x2022 := by decide
theorem test_ldrIo_makes_one_event :
    after 0x2220 (withWord 0x0300 0xBEEF (testState [(2, 0x0300)])) (fun t => (t.ioHistory.length, t.readReg 0, t.draws, t.pc)) = some (1, 0, 1, 0x0101) := by decide
theorem test_str_stores :
    after 0x2423 (testState [(3, 0x0200), (2, 0xCAFE)]) (fun t => (Memory.readWord t.mem 0x0200, t.readReg 3, t.pc)) = some (0xCAFE, 0x0200, 0x0101) := by decide
theorem test_str_zero :
    after 0x2403 (withWord 0xFFFF 0xFFFF (testState [(3, 0xFFFF)])) (fun t => Memory.readWord t.mem 0xFFFF) = some 0x0000 := by decide
theorem test_strIo_makes_an_event :
    after 0x2623 (withWord 0x0200 0x1111 (testState [(3, 0x0200), (2, 0xCAFE)])) (fun t => (t.ioHistory, Memory.readWord t.mem 0x0200)) = some ([.write 0x0200 0xCAFE], 0x1111) := by decide

/-! ## Jumps (95, 2.2) -/

theorem test_jmr_no_link :
    after 0x2823 (testState [(2, 0xFFFF), (3, 0x7777)]) (fun t => (t.pc, t.readReg 3)) = some (0x00FF, 0x7777) := by decide
theorem test_jmrs_reads_before_link :
    after 0x2A22 (testState [(2, 0x0010)]) (fun t => (t.pc, t.readReg 2)) = some (0x0110, 0x0101) := by decide
theorem test_jmi_back_32 :
    after 0x2E03 (testState []) (fun t => (t.pc, t.readReg 3)) = some (0x00E0, 0x0101) := by decide
theorem test_jmi_self :
    after 0x2C00 (testState []) (fun t => (t.pc, t.readReg 0)) = some (0x0100, 0x0000) := by decide

/-! ## Compares (95, 2.3) -/

theorem test_cmr_unsigned :
    after 0xF032 (testState [(3, 0xFFFF), (2, 1)]) (fun t => t.r15) = some 0x0020 := by decide
theorem test_cmr_keeps_other_bits :
    after 0xF032 (testState [(3, 2), (2, 2), (15, 0xFBFF)]) (fun t => (t.r15, t.pc)) = some (0xFBDF, 0x0101) := by decide
theorem test_cmrs_signed :
    after 0xF032 (testState [(3, 0x8000), (2, 0x7FFF), (15, 0x0400)]) (fun t => t.r15) = some 0x0400 := by decide
theorem test_cmrs_greater :
    after 0xF032 (testState [(3, 1), (2, 0xFFFF), (15, 0x0400)]) (fun t => t.r15) = some 0x0420 := by decide
theorem test_cmi_extends_then_unsigned :
    after 0xF302 (testState [(2, 0x0000)]) (fun t => t.r15) = some 0x0020 := by decide
theorem test_cmi_immediate_is_first :
    after 0xF2F2 (testState [(2, 0x0010)]) (fun t => t.r15) = some 0x0000 := by decide
theorem test_cmis_signed :
    after 0xF302 (testState [(2, 0x0000), (15, 0x0400)]) (fun t => t.r15) = some 0x0400 := by decide
theorem test_cmis_equal :
    after 0xF3F2 (testState [(2, 0xFFFF), (15, 0x0400)]) (fun t => t.r15) = some 0x0410 := by decide

/-! ## Branches (95, 2.4) -/

theorem test_brc_lt_taken :
    after 0xF592 (testState [(2, 0x0200)]) (fun t => t.pc) = some 0x0200 := by decide
theorem test_brc_target_is_r15 :
    after 0xF42F (testState [(15, 0x0020)]) (fun t => t.pc) = some 0x0020 := by decide
theorem test_brr_backward :
    after 0xF652 (testState [(2, 0xFFFD)]) (fun t => t.pc) = some 0x00FD := by decide
theorem test_brr_not_taken :
    after 0xF612 (testState [(2, 0x0020), (15, 0x0010)]) (fun t => t.pc) = some 0x0101 := by decide
theorem test_condition_table :
    (List.range 6).map (fun c => [condition (BitVec.ofNat 3 c) false false, condition (BitVec.ofNat 3 c) false true,
      condition (BitVec.ofNat 3 c) true false, condition (BitVec.ofNat 3 c) true true].map (fun x => x == some true)) =
    [[false, true, false, true], [true, false, false, false], [false, false, true, true],
     [false, true, true, true], [true, true, false, true], [true, false, true, false]] := by decide

/-! ## Logic and moves (95, 2.5) -/

theorem test_anr_ands :
    after 0x3235 (testState [(3, 0xF0F0), (2, 0xFF00)]) (fun t => t.readReg 5) = some 0xF000 := by decide
theorem test_ani_zero_extends :
    after 0x4FA5 (testState [(5, 0xFFFF)]) (fun t => t.readReg 5) = some 0x00FA := by decide
theorem test_ani_clears_shadows :
    after 0x47FF (testState [(15, 0x04B5)]) (fun t => t.r15) = some 0x0035 := by decide
theorem test_anir_largest_immediate :
    after 0x4F15 (testState [(1, 0xFFFF), (15, 0x8000)]) (fun t => t.readReg 5) = some 0x000F := by decide
theorem test_msi_sign_extends :
    after 0x5805 (testState []) (fun t => t.readReg 5) = some 0xFF80 := by decide
theorem test_msi_into_r15 :
    after 0x5FFF (testState []) (fun t => t.r15) = some 0xFFFF := by decide
theorem test_mhi_keeps_low :
    after 0x6645 (testState [(5, 0x1234), (15, 0xFFFF)]) (fun t => t.readReg 5) = some 0x6434 := by decide
theorem test_mhi_boot :
    after 0x600F (testState [(15, 0xFFFF)]) (fun t => t.r15) = some 0x00FF := by decide

/-! ## Register shifts (95, 2.6) -/

theorem test_slr_right_15 :
    after 0x7325 (testState [(2, 0x8001), (3, 0x000F)]) (fun t => t.readReg 5) = some 0x0001 := by decide
theorem test_slr_left_4 :
    after 0x7325 (testState [(2, 0x8001), (3, 0x0014)]) (fun t => t.readReg 5) = some 0x0010 := by decide
theorem test_sar_sign_fill :
    after 0x8325 (testState [(2, 0x8001), (3, 0xFFE4)]) (fun t => t.readReg 5) = some 0xF800 := by decide
theorem test_sar_minus_zero :
    after 0x8325 (testState [(2, 0x8001), (3, 0x0010)]) (fun t => t.readReg 5) = some 0x8001 := by decide
/-- With the two's-complement format, 0011 with bit 4 set is left 15, 1111 left 1, 0000 left 16 (95, 2.6). -/
theorem test_twos_complement_amounts :
    [0x11#5, 0x1F#5, 0x10#5].map (fun a => shift 0x8001#16 (registerAmount .twosComplement a) true) =
      [0x8000#16, 0x0002#16, 0x0000#16] := by decide

/-! ## Add and subtract (95, 2.7) -/

theorem test_adr_wraps :
    after 0x9325 (testState [(2, 0xFFFF), (3, 1)]) (fun t => (t.readReg 5, t.r15)) = some (0x0000, 0x0000) := by decide
theorem test_sur_minuend_is_rs1 :
    after 0xA325 (testState [(2, 0x1234), (3, 0x0034)]) (fun t => t.readReg 5) = some 0x1200 := by decide
theorem test_adi_minus_106 :
    after 0xB965 (testState [(5, 0x0100)]) (fun t => t.readReg 5) = some 0x0096 := by decide
theorem test_adir_minus_8 :
    after 0xB815 (testState [(1, 0x000A), (15, 0x8000)]) (fun t => t.readReg 5) = some 0x0002 := by decide
theorem test_sui_minus_minus_128 :
    after 0xC805 (testState [(5, 0x0100)]) (fun t => t.readReg 5) = some 0x0180 := by decide
theorem test_suir_minus_minus_1 :
    after 0xCF15 (testState [(1, 0x000A), (15, 0x8000)]) (fun t => t.readReg 5) = some 0x000B := by decide

/-! ## Multiply (95, 2.8) -/

theorem test_mul_unsigned :
    after 0xD235 (testState [(3, 0xFFFF), (2, 0xFFFF)]) (fun t => (t.readReg 5, t.readReg 6)) = some (0x0001, 0xFFFE) := by decide
theorem test_mul_into_r14_and_r15 :
    after 0xD23E (testState [(3, 0x0100), (2, 0x0123)]) (fun t => (t.readReg 14, t.r15)) = some (0x2300, 0x0001) := by decide
theorem test_muls_signed :
    after 0xD235 (testState [(3, 0xFFFD), (2, 7), (15, 0x1000)]) (fun t => (t.readReg 5, t.readReg 6)) = some (0xFFEB, 0xFFFF) := by decide
theorem test_muls_largest :
    after 0xD235 (testState [(3, 0x8000), (2, 0x8000), (15, 0x1000)]) (fun t => (t.readReg 5, t.readReg 6)) = some (0x0000, 0x4000) := by decide
theorem test_mull_keeps_second :
    after 0xD235 (testState [(3, 0xFFFF), (2, 0xFFFF), (6, 0xAAAA), (15, 0x2000)]) (fun t => (t.readReg 5, t.readReg 6)) = some (0x0001, 0xAAAA) := by decide
theorem test_mull_both_shadows :
    after 0xD235 (testState [(3, 0xFFFD), (2, 7), (6, 0xAAAA), (15, 0x3000)]) (fun t => (t.readReg 5, t.readReg 6)) = some (0xFFEB, 0xAAAA) := by decide

/-! ## Divide (95, 2.9) -/

theorem test_div_unsigned :
    after 0xE235 (testState [(3, 0xFFF9), (2, 2)]) (fun t => (t.readReg 5, t.readReg 6)) = some (0x7FFC, 0x0001) := by decide
theorem test_div_into_r15 :
    after 0xE23F (testState [(3, 0x0064), (2, 7)]) (fun t => (t.r15, t.readReg 0)) = some (0x000E, 0x0000) := by decide
theorem test_divs_toward_zero :
    after 0xE235 (testState [(3, 7), (2, 0xFFFE), (15, 0x1000)]) (fun t => (t.readReg 5, t.readReg 6)) = some (0xFFFD, 0x0001) := by decide
theorem test_divs_overflow :
    after 0xE235 (testState [(3, 0x8000), (2, 0xFFFF), (15, 0x1000)]) (fun t => (t.readReg 5, t.readReg 6)) = some (0x8000, 0x0000) := by decide
theorem test_divq_keeps_second :
    after 0xE235 (testState [(3, 0x0064), (2, 7), (6, 0xAAAA), (15, 0x0800)]) (fun t => (t.readReg 5, t.readReg 6)) = some (0x000E, 0xAAAA) := by decide
theorem test_divq_signed :
    after 0xE235 (testState [(3, 0xFFF9), (2, 2), (6, 0xAAAA), (15, 0x1800)]) (fun t => (t.readReg 5, t.readReg 6)) = some (0xFFFD, 0xAAAA) := by decide
/-- On a platform whose DIV_BY_ZERO is fault, the default, a zero divisor faults (95, 2.9). -/
theorem test_div_by_zero_faults :
    faultOf 0xE235 (testState [(3, 0x0064)]) = some (.divideByZero 0x0100) := by decide
/-- Where it is any_value it completes, and DIVQ keeps rd + 1 and draws one free value. -/
theorem test_divq_by_zero_completes :
    after 0xE035 (volatileState [(3, 0x0064), (6, 0xAAAA), (15, 0x0800)]) (fun t => (t.pc, t.readReg 6, t.draws)) =
      some (0x0101, 0xAAAA, 1) := by decide

/-! ## SHI, NTR, NTD (95, 2.10, 2.11) -/

theorem test_shil_left :
    after 0xF935 (testState [(5, 0x8008)]) (fun t => t.readReg 5) = some 0x0040 := by decide
theorem test_shia_right :
    after 0xFA35 (testState [(5, 0x8008)]) (fun t => t.readReg 5) = some 0xF001 := by decide
theorem test_ntr_ones :
    after 0xFC25 (testState [(2, 0x00FF)]) (fun t => t.readReg 5) = some 0xFF00 := by decide
theorem test_ntr_twos :
    after 0xFD25 (testState [(2, 0x8000)]) (fun t => t.readReg 5) = some 0x8000 := by decide
theorem test_ntd_ones :
    after 0xFE0F (testState [(15, 0x0010)]) (fun t => t.r15) = some 0xFFEF := by decide
theorem test_ntd_twos :
    after 0xFF05 (testState [(5, 0x1234)]) (fun t => t.readReg 5) = some 0xEDCC := by decide

/-! ## Faults (95, 2.12) -/

theorem test_reserved0_faults : faultOf 0x0000 (testState []) = some (.reservedOpcode 0x0100) := by decide
theorem test_reserved1_faults : faultOf 0x1FFF (testState []) = some (.reservedOpcode 0x0100) := by decide
theorem test_brc_reserved_condition : faultOf 0xF462 (testState []) = some (.reservedCondition 0x0100) := by decide
theorem test_brr_reserved_condition : faultOf 0xF672 (testState []) = some (.reservedCondition 0x0100) := by decide
theorem test_msiShadow_faults :
    faultOf 0x5645 (testState [(15, 0x4000)]) = some (.undescribedShadow 0x0100) := by decide
theorem test_fetch_unmapped :
    faultOf 0x9000 { testState [] with platform := closedPlatform } =
      some (.unmappedAccess .fetch 0x0100 0x0100) := by decide
/-- R85: IR[8] of LDR where it must be 0, and where it is ignored. -/
theorem test_ignored_bits :
    faultOf 0x2100 (narrowState []) = some (.reservedOpcode 0x0100) ∧
    after 0x2100 (testState []) (fun t => t.pc) = some 0x0101 := by decide

/-! ## A volatile R15 (10_state.md R34) -/

theorem test_volatile_refuses_shadow_bits :
    faultOf 0x580F (volatileState []) = some (.undescribedShadowWrite 0x0100) ∧
    after 0x57FF (volatileState [(15, 0x03FF)]) (fun t => t.r15) = some 0x007F := by decide
theorem test_volatile_read_draws :
    after 0x90F1 (volatileState [(15, 0x0030)]) (fun t => (t.pc, t.draws)) = some (0x0101, 1) := by decide
theorem test_volatile_compare_accepts :
    after 0xF011 (volatileState [(15, 0x0300)]) (fun t => t.r15) = some 0x0310 := by decide

/-! ## Launch and the end of a run (70_reset_and_hazards.md R215, R216) -/

theorem test_load_places_words :
    let s := State.launch defaultPlatform 0x0040 0xFFFF (Vector.replicate 14 0x1234) [(0x0040, 0x600F), (0x0041, 0x2C00)]
    (Memory.readWord s.mem 0x0041, s.pc, s.r15, s.readReg 14) = (0x2C00, 0x0040, 0xFFFF, 0x1234) := by decide
theorem test_run_does_not_end_unmapped :
    ¬ State.runEnded { (testState []).withFetchWord 16 0x2C00 with platform := closedPlatform } := by
  unfold State.runEnded
  decide

/-! ## Witnesses: states and operands that meet the hypotheses of the obligations, at the ends of their ranges -/

/-- Every row that shares its word with another is selected by some R15, the base rows by R15 = 0. -/
theorem witness_selectedBy :
    [(0x0000#16, Instr.ani 15#4 0xFF#8), (0x0000#16, .msi 15#4 0x80#8), (0x0000#16, .adi 0#4 0x80#8),
     (0x0000#16, .sui 0#4 0x7F#8), (0xCFFF#16, .mul 15#4 15#4 15#4), (0xE7FF#16, .div 0#4 15#4 0#4),
     (0xFBFF#16, .cmr 0#4 15#4), (0xFBFF#16, .cmi 0b10000#5 15#4)].all (fun p => p.2.selectedBy p.1) = true ∧
    [(0x8000#16, Instr.anir 15#4 0#4 0xF#4), (0x4000#16, .msiShadow 0#4 0x00#8), (0x8000#16, .adir 0#4 15#4 0x8#4),
     (0x8000#16, .suir 0#4 15#4 0x8#4), (0x1000#16, .muls 15#4 0#4 0#4), (0x2000#16, .mull 15#4 0#4 0#4),
     (0x1000#16, .divs 15#4 0#4 0#4), (0x0800#16, .divq 15#4 0#4 0#4), (0x0400#16, .cmrs 15#4 0#4),
     (0x0400#16, .cmis 0b11111#5 0#4)].all (fun p => p.2.selectedBy p.1) = true := by decide

/-- Different words that differ in fieldless bits only: LDR, JMR, CMR, NTD. -/
theorem witness_fieldlessBits :
    [(0x2123#16, 0x2023#16), (0x2723#16, 0x2623#16), (0x2923#16, 0x2823#16), (0xF132#16, 0xF032#16),
     (0xFEF5#16, 0xFE05#16)].all (fun p =>
      decide (p.1 &&& ~~~ fieldlessBits p.1 = p.2 &&& ~~~ fieldlessBits p.2 ∧ p.1 ≠ p.2)) = true := by decide

/-- Two R15 with the same shadow bits, and words of opcodes without a shadow next to those that have one. -/
theorem witness_shadowBits :
    (0x03FF#16 : Word).extractLsb' 10 6 = (0x0000#16 : Word).extractLsb' 10 6 ∧
    [0x0000#16, 0x3FFF#16, 0x6000#16, 0xAFFF#16, 0xF400#16, 0xFFFF#16].all (fun w : Word =>
      decide (w.extractLsb' 12 4 ∉ [4#4, 5#4, 11#4, 12#4, 13#4, 14#4] ∧ w.extractLsb' 10 6 ≠ 0b111100#6)) = true := by
  decide

/-- The last reserved word and the first word that is none. -/
theorem witness_reservedWords :
    decode 0xFFFF#16 0x1FFF#16 = .reserved1 0xFFF#12 ∧ decode 0x0000#16 0x2000#16 = .ldr 0#4 0#4 := by decide

/-- Each row's mask, pattern and shadow condition are met together by some word and R15. -/
theorem witness_decodesAs :
    (0x21FF#16 &&& 0xFE00#16 = (0x2000#16 : Word) ∧ 0x2323#16 &&& 0xFE00#16 = (0x2200#16 : Word) ∧
      0x25FF#16 &&& 0xFE00#16 = (0x2400#16 : Word) ∧ 0x27FF#16 &&& 0xFE00#16 = (0x2600#16 : Word) ∧
      0x2BFF#16 &&& 0xFC00#16 = (0x2800#16 : Word) ∧ 0x2FFF#16 &&& 0xFC00#16 = (0x2C00#16 : Word)) ∧
    (0x3FFF#16 &&& 0xF000#16 = (0x3000#16 : Word) ∧ 0x6FFF#16 &&& 0xF000#16 = (0x6000#16 : Word) ∧
      0x7FFF#16 &&& 0xF000#16 = (0x7000#16 : Word) ∧ 0x8FFF#16 &&& 0xF000#16 = (0x8000#16 : Word) ∧
      0x9FFF#16 &&& 0xF000#16 = (0x9000#16 : Word) ∧ 0xAFFF#16 &&& 0xF000#16 = (0xA000#16 : Word)) ∧
    (0xF5FF#16 &&& 0xFE00#16 = (0xF400#16 : Word) ∧ 0xF7FF#16 &&& 0xFE00#16 = (0xF600#16 : Word) ∧
      0xFBFF#16 &&& 0xFC00#16 = (0xF800#16 : Word) ∧ 0xFDFF#16 &&& 0xFE00#16 = (0xFC00#16 : Word) ∧
      0xFFFF#16 &&& 0xFE00#16 = (0xFE00#16 : Word)) := by decide

/-- The rows with a shadow: opcodes 0100, 0101, 1011, 1100, 1101, 1110, and 1111 00, base and shadow. -/
theorem witness_decodesAs_shadowed :
    [0x4FFF#16, 0xBFFF#16, 0xCFFF#16].map (fun w : Word => (decode 0x7FFF#16 w, decode 0x8000#16 w)) =
      [(.ani 15#4 0xFF#8, .anir 15#4 15#4 15#4), (.adi 15#4 0xFF#8, .adir 15#4 15#4 15#4),
       (.sui 15#4 0xFF#8, .suir 15#4 15#4 15#4)] ∧
    (decode 0xBFFF#16 0x5FFF#16, decode 0x4000#16 0x5FFF#16) = (.msi 15#4 0xFF#8, .msiShadow 15#4 0xFF#8) ∧
    [0xCFFF#16, 0xDFFF#16, 0x2000#16].map (fun r : Word => decode r 0xDFFF#16) =
      [.mul 15#4 15#4 15#4, .muls 15#4 15#4 15#4, .mull 15#4 15#4 15#4] ∧
    [0xE7FF#16, 0xF7FF#16, 0x0800#16].map (fun r : Word => decode r 0xEFFF#16) =
      [.div 15#4 15#4 15#4, .divs 15#4 15#4 15#4, .divq 15#4 15#4 15#4] ∧
    [0xFBFF#16, 0x0400#16].map (fun r : Word => (decode r 0xF1FF#16, decode r 0xF3FF#16)) =
      [(.cmr 15#4 15#4, .cmi 31#5 15#4), (.cmrs 15#4 15#4, .cmis 31#5 15#4)] := by decide

/-- MEM_MAP admits an access at reset and at 0x0100 of `narrowPlatform`, and not beside it. -/
theorem witness_mapAdmits :
    [AccessKind.fetch, .load, .store].all (fun k =>
      mapAdmits State.reset.platform.memMap k 0xFFFF#16 && mapAdmits narrowPlatform.memMap k 0x0100#16 &&
      !mapAdmits narrowPlatform.memMap k 0x00FF#16 && !mapAdmits narrowPlatform.memMap k 0x0101#16) = true := by decide

/-- A fetch that is admitted and one that is not, a word that may not be decoded, and the faults the next step names. -/
theorem witness_faultNext :
    ((narrowState []).withFetchWord 16 0xFFFF).faultNext = some (.reservedOpcode 0x0100#16) ∧
    ((narrowState []).withFetchWord 16 0xFF0F).faultNext = none ∧
    ((narrowState []).withFetchWord 16 0xF460).faultNext = some (.reservedCondition 0x0100#16) ∧
    ((narrowState []).withFetchWord 16 0x2023).faultNext = some (.unmappedAccess .load 0x0000#16 0x0100#16) ∧
    ((narrowState []).withFetchWord 16 0xE235).faultNext = some (.divideByZero 0x0100#16) ∧
    ({ narrowState [] with pc := 0x0101#16 } : State).faultNext =
      some (.unmappedAccess .fetch 0x0101#16 0x0101#16) := by decide

/-- The optional fault: the table names none, R15 is volatile, and the instruction writes it. -/
theorem witness_refusedWrite :
    let s := (volatileState []).withFetchWord 16 0x580F
    s.faultNext = none ∧ s.platform.r15Undoc = .volatile ∧
      15#4 ∈ (decode s.r15 (Memory.readWord s.mem s.pc)).destinations ∧
      (decode s.r15 (Memory.readWord s.mem s.pc)).isCompare = false ∧
      step s = .fault (.undescribedShadowWrite s.pc) := by
  refine ⟨by decide, by decide, by decide, by decide, rfl⟩

/-- A word that may be decoded where bits no field covers must be 0, and one that may not. -/
theorem witness_acceptsWord :
    acceptsWord (narrowState []) 0xFE0F = true ∧ acceptsWord (narrowState []) 0xFE1F = false ∧
    acceptsWord (testState []) 0xFE1F = true := by decide

theorem witness_storedWord :
    let s := testState [(3, 0x0101), (2, 0x9000)]
    s.operandA 3 = s.pc + 1#16 ∧ mapAdmits s.platform.memMap .store (s.pc + 1#16) = true ∧
      mapAdmits s.platform.memMap .fetch (s.pc + 1#16) = true ∧ acceptsWord s (s.operandB 2) = true := by decide

/-- A state whose run has ended, one step from a state whose run has not. -/
theorem witness_runEnded :
    ((testState []).withFetchWord 16 0x2C00).runEnded ∧
    ((testState []).withFetchWord 16 0x2C00).finalState ((testState []).withFetchWord 16 0x2C00) := by
  have h : ((testState []).withFetchWord 16 0x2C00).runEnded := by
    unfold State.runEnded
    decide
  exact ⟨h, 0, rfl, h, fun m hm => absurd hm (Nat.not_lt_zero m)⟩

/-- A fault at the next step. -/
theorem witness_faultedRun : step ((testState []).withFetchWord 16 0x0000) = .fault (.reservedOpcode 0x0100#16) := rfl

theorem witness_boot :
    let s := (volatileState [(15, 0xFFFF)]).withFetchWord 16 0x600F
    Memory.readWord s.mem s.pc = 0x600F#16 ∧ mapAdmits s.platform.memMap .fetch s.pc = true ∧ s.r15 = 0xFFFF#16 ∧
      (testState []).platform.r15Undoc = .storage := by
  decide

/-- Registers and policies under each clause about operands, and writes that are accepted and that are not. -/
theorem witness_operands :
    (volatileState []).platform.r15Undoc = .volatile ∧ (testState []).platform.r15Undoc = .storage ∧
    (14#4 : RegIdx) ≠ 15#4 ∧ (volatileState []).acceptsWrite 15#4 0xFCFF#16 = true ∧
    (volatileState []).acceptsWrite 15#4 0x0100#16 = false ∧ (volatileState []).acceptsWrite 14#4 0xFFFF#16 = true ∧
    (testState []).acceptsWrite 15#4 0xFFFF#16 = true := by decide

/-- An accepted write of a volatile R15 by an instruction that is no compare. -/
theorem witness_acceptedR15 :
    (∃ t, exec (.msi 15#4 0x7F#8) (volatileState []) = .next t) ∧
    15#4 ∈ (Instr.msi 15#4 0x7F#8).destinations ∧ (Instr.msi 15#4 0x7F#8).isCompare = false := by
  exact ⟨⟨_, rfl⟩, by decide, by decide⟩

/-- A volatile R15 with bits 9:8 clear, and a step from it. -/
theorem witness_clearShadows :
    let s := (volatileState [(15, 0x0C30)]).withFetchWord 16 0x57FF
    s.platform.r15Undoc = .volatile ∧ s.r15.extractLsb' 8 2 = 0#2 ∧ ∃ t, step s = .next t := by
  exact ⟨by decide, by decide, _, rfl⟩

/-- LDR and STR at an admitted address, and at one that is not, the word accepted where R15 is the destination. -/
theorem witness_transferAddresses :
    let s := narrowState [(2, 0x0100), (3, 0x0101)]
    mapAdmits s.platform.memMap .load (s.operandA 2) = true ∧ mapAdmits s.platform.memMap .load (s.operandA 3) = false ∧
      mapAdmits s.platform.memMap .store (s.operandA 2) = true ∧
      mapAdmits s.platform.memMap .store (s.operandA 3) = false ∧
      s.acceptsWrite 15 (Memory.readWord s.mem (s.operandA 2)) = true ∧
      s.acceptsWrite 15 (ioAnswer (s.afterReading [2])) = true := by
  exact ⟨by decide, by decide, by decide, by decide, rfl, rfl⟩

/-- Two registers that hold one address, one store and one load on. -/
theorem witness_loadAfterStore :
    let s := testState [(3, 0xFFFF), (4, 0xFFFF), (2, 0xCAFE)]
    mapAdmits s.platform.memMap .store (s.operandA 3) = true ∧ mapAdmits s.platform.memMap .load (s.operandA 3) = true ∧
      s.acceptsWrite 15 (s.operandB 2) = true ∧
      ∃ t, exec (.str 3 2) s = .next t ∧ t.operandA 4 = s.operandA 3 := by
  exact ⟨by decide, by decide, by decide, _, rfl, by decide⟩

/-- Three IO transfers one after another. -/
theorem witness_ioTransfers :
    ∃ t u v, exec (.ldrIo 5 2) (testState []) = .next t ∧ exec (.strIo 3 2) t = .next u ∧
      exec (.ldrIo 6 2) u = .next v := by
  exact ⟨_, _, _, rfl, rfl, rfl⟩

/-- The last condition of Table 1, holding and not, and G = E = 1. -/
theorem witness_conditions :
    (0b11101#5).toNat % 8 < 6 ∧
    (let s := testState [(15, 0x0020)]
     conditionHolds ((0b11101#5).toNat % 8) ((s.readReg 15).getLsbD 5) ((s.readReg 15).getLsbD 4)) ∧
    (let s := testState [(15, 0x0030)]
     ¬ conditionHolds ((0b11101#5).toNat % 8) ((s.readReg 15).getLsbD 5) ((s.readReg 15).getLsbD 4)) := by
  unfold conditionHolds
  decide

/-- The two reserved conditions, and two fields that differ in FIB[4:3] only. -/
theorem witness_reservedConditions :
    6 ≤ (0b00110#5).toNat % 8 ∧ 6 ≤ (0b11111#5).toNat % 8 ∧ (0b00001#5).toNat % 8 = (0b11001#5).toNat % 8 := by decide

/-- A relation that holds and one that does not, at the ends of the signed and the unsigned range. -/
theorem witness_relations :
    relationNamed 1 (reading true 0x8000#16) (reading true 0x7FFF#16) ∧
    ¬ relationNamed 1 (reading false 0x8000#16) (reading false 0x7FFF#16) ∧
    relationNamed 2 (reading false ((0b11111#5).signExtend 16)) (reading false 0xFFFE#16) ∧
    ¬ relationNamed 5 (reading true 0xFFFF#16) (reading true 0xFFFF#16) := by
  unfold relationNamed reading
  decide

/-- Both formats of a shift amount, and the amounts on either side of bit 4. -/
theorem witness_shiftFormats :
    (testState []).platform.regShiftFormat = .signMagnitude ∧ (narrowState []).platform.regShiftFormat = .twosComplement ∧
    16 ≤ ((testState [(3, 0xFFF0)]).readReg 3).toNat % 32 ∧ ¬ 16 ≤ ((testState [(3, 0xFFEF)]).readReg 3).toNat % 32 := by
  decide

/-- A divisor that is not zero, and R15[12] both ways. -/
theorem witness_divisor :
    (testState [(2, 0xFFFF), (3, 0x8000)]).operandB 2 ≠ 0#16 ∧
    (testState [(15, 0x1800)]).r15.getLsbD 12 = true ∧ (testState [(15, 0x0800)]).r15.getLsbD 12 = false := by decide

/-- A zero divisor, R0 among them, with both settings of DIV_BY_ZERO, the free values accepted. -/
theorem witness_zeroDivisor :
    (volatileState []).operandB 0 = 0#16 ∧ (volatileState []).platform.divByZero = .anyValue ∧
    (volatileState []).acceptsWrite 5 (Config.draw 0) = true ∧ (volatileState []).acceptsWrite 6 (Config.draw 1) = true ∧
    (narrowState [(2, 0)]).operandB 2 = 0#16 ∧ (narrowState []).platform.divByZero = .fault := by
  exact ⟨by decide, by decide, rfl, rfl, by decide, by decide⟩

/-- A volatile R15 with an admitted load, with a divisor that is not zero and with a zero one. -/
theorem witness_refusals :
    let s := volatileState [(3, 7)]
    s.platform.r15Undoc = .volatile ∧ mapAdmits s.platform.memMap .load (s.operandA 3) = true ∧ s.operandB 3 ≠ 0#16 ∧
      s.operandB 2 = 0#16 ∧ s.platform.divByZero = .anyValue := by decide

/-- An operand read alike first and second. -/
theorem witness_sameOperand : (volatileState [(3, 7)]).operandA 3 = (volatileState [(3, 7)]).operandB 3 := by decide

/-- A memory in canonical form with both ends listed, and a step from it that stores. -/
theorem witness_canonicalMemory :
    let s := withWord 0xFFFF 0xBEEF (withWord 0x0000 0x0000 ((testState [(3, 0x0200)]).withFetchWord 16 0x2403))
    Memory.wf s.mem = true ∧ (match step s with | .next t => decide (t.mem ≠ s.mem) | _ => false) = true := by decide

/-- A memory that is not: an entry outside the address space. -/
theorem witness_memory_refused : Memory.wf [(131072, 0x00#8)] = false := by decide

/-- Each clause about IO and memory has an instruction under it that answers a next state. -/
theorem witness_transferClauses :
    (∃ t, exec (.adr 5#4 3#4 2#4) (testState []) = .next t) ∧ (∃ t, exec (.str 3#4 2#4) (testState []) = .next t) ∧
    (∃ t, exec (.ldrIo 3#4 2#4) (testState []) = .next t) ∧ (∃ t, exec (.strIo 3#4 2#4) (testState []) = .next t) ∧
    (∀ rd rs1, Instr.adr 5#4 3#4 2#4 ≠ .str rd rs1) ∧ (∀ rd rs1, Instr.adr 5#4 3#4 2#4 ≠ .ldrIo rd rs1) ∧
    (∀ rd rs1, Instr.adr 5#4 3#4 2#4 ≠ .strIo rd rs1) := by
  refine ⟨⟨_, rfl⟩, ⟨_, rfl⟩, ⟨_, rfl⟩, ⟨_, rfl⟩, ?_, ?_, ?_⟩ <;> intro _ _ h <;> cases h

/-- Registers that are no destination: beside a pair, and R15 beside an instruction that does not name it. -/
theorem witness_destinations :
    (∃ t, exec (.mul 13#4 3#4 2#4) (testState []) = .next t) ∧ 15#4 ∉ (Instr.mul 13#4 3#4 2#4).destinations ∧
    (∃ t, exec (.cmr 3#4 2#4) (testState []) = .next t) ∧ 14#4 ∉ (Instr.cmr 3#4 2#4).destinations := by
  refine ⟨⟨_, rfl⟩, ?_, ⟨_, rfl⟩, ?_⟩ <;> decide

/-- An instruction that is no jump, at the last address. -/
theorem witness_fallsThrough :
    (Instr.adr 0#4 0#4 0#4).fallsThrough = true ∧
    ∃ t, exec (.adr 0#4 0#4 0#4) { testState [] with pc := 0xFFFF#16 } = .next t := by
  exact ⟨by decide, _, rfl⟩

/-- Two different states that agree on what ADR reads; and a fault both raise. -/
theorem witness_sources :
    let s := testState [(3, 0x1234), (2, 0x0001)]
    let s' := testState [(3, 0x1234), (2, 0x0001), (5, 0xFFFF), (15, 0xFFFF)]
    s' ≠ s ∧ s'.pc = s.pc ∧ s'.mem = s.mem ∧ s'.ioHistory = s.ioHistory ∧ s'.draws = s.draws ∧
      s'.platform = s.platform ∧ (∀ r ∈ (Instr.adr 5#4 3#4 2#4).sources, s'.readReg r = s.readReg r) ∧
      exec (.reserved0 0#12) s = .fault (.reservedOpcode 0x0100#16) ∧
      ∃ t, exec (.adr 5#4 3#4 2#4) s = .next t := by
  refine ⟨by decide, by decide, by decide, by decide, by decide, by decide, by decide, rfl, _, rfl⟩

/-- The first and the last register whose content is a launch parameter. -/
theorem witness_launchRegisters :
    (1 ≤ (1#4).toNat ∧ (1#4).toNat ≤ 14) ∧ (1 ≤ (14#4).toNat ∧ (14#4).toNat ≤ 14) := by decide

/-- A program and data at different addresses, both ends of memory among them, with admitted loads and stores. -/
theorem witness_launchPremises :
    ([(0x0000#16, 0x600F#16), (0x0001#16, 0x2C00#16)] ++ [(0xFFFF#16, 0x1234#16)] : Image).Pairwise
      (fun p q => p.1 ≠ q.1) ∧
    (∀ w ∈ ([(0x0000#16, 0x600F#16), (0x0001#16, 0x2C00#16)] : Image),
      mapAdmits defaultPlatform.memMap .fetch w.1 = true) ∧
    (∀ a ∈ ([0xFFFF#16] : List Word), mapAdmits defaultPlatform.memMap .load a = true) ∧
    (∀ a ∈ ([0x8000#16] : List Word), mapAdmits defaultPlatform.memMap .store a = true) := by
  refine ⟨by decide, ?_, ?_, ?_⟩ <;> simp [mapAdmits, defaultPlatform, allRam, regionPermits]

end Sys2Proof.Tests
end

section
/-! The words of a row: a field that lies under the row's mask is the field of the row's pattern (30_encoding.md R80). -/

namespace Sys2Proof

/-- A field that the mask covers reads as it does in the pattern. -/
theorem extractLsb'_of_masked {w mask pattern : Word} (h : w &&& mask = pattern) {start len : Nat}
    (hm : mask.extractLsb' start len = BitVec.allOnes len) :
    w.extractLsb' start len = pattern.extractLsb' start len := by
  rw [← h, BitVec.extractLsb'_and, hm, BitVec.and_allOnes]

/-- A bit that the mask covers reads as it does in the pattern. -/
theorem getLsbD_of_masked {w mask pattern : Word} (h : w &&& mask = pattern) {b : Nat}
    (hm : mask.getLsbD b = true) : w.getLsbD b = pattern.getLsbD b := by
  rw [← h, BitVec.getLsbD_and, hm, Bool.and_true]

/-- What a row of format XR fixes (R75): opcode, extension and IR[9]. -/
theorem fields_of_xrRow {w : Word} {op : BitVec 4} {ext : BitVec 2} {opt : Bool}
    (h : w &&& 0xFE00#16 = encXR op ext opt 0#4 0#4) : irOpcode w = op ∧ irExt w = ext ∧ irOpt w = opt := by
  refine ⟨?_, ?_, ?_⟩
  · exact (extractLsb'_of_masked h (by decide)).trans (irOpcode_encXR ..)
  · exact (extractLsb'_of_masked h (by decide)).trans (irExt_encXR ..)
  · exact (getLsbD_of_masked h (by decide)).trans (irOpt_encXR ..)

/-- Opcode 0010 has no shadow. -/
theorem decode_of_irOpcode_two {w : Word} (r15 : Word) (h : irOpcode w = 0b0010#4) : decode r15 w = decodeTransfer w := by
  simp [decode, h]

/-- The words of the four data transfers, told apart by IR[10] and IR[9] (R81). -/
theorem decode_of_transferRow {w : Word} (r15 : Word) (store io : Bool)
    (h : w &&& 0xFE00#16 = encXR 0b0010#4 (0b0#1 ++ BitVec.ofBool store) io 0#4 0#4) :
    decode r15 w =
      match store, io with
      | false, false => .ldr (irRd w) (irRs1 w)
      | false, true => .ldrIo (irRd w) (irRs1 w)
      | true, false => .str (irRd w) (irRs1 w)
      | true, true => .strIo (irRd w) (irRs1 w) := by
  obtain ⟨hop, hext, hopt⟩ := fields_of_xrRow h
  rw [decode_of_irOpcode_two r15 hop]
  cases store <;> cases io <;> simp [decodeTransfer, hext, hopt]

end Sys2Proof
end

section
/-! What the four data transfers answer where they complete (40_data_transfer.md R100 to R103). -/

namespace Sys2Proof.Machine

@[simp] theorem State.acceptsWrite_ioRead (s : State) (a : Word) (i : RegIdx) (v : Word) :
    (ioRead s a).acceptsWrite i v = s.acceptsWrite i v := rfl

/-- Whether reading operands draws a free value does not depend on memory. -/
@[simp] theorem State.afterReading_setMem_draws (s : State) (m : Memory) (is : List RegIdx) :
    (State.afterReading { s with mem := m } is).draws = (s.afterReading is).draws := by
  unfold State.afterReading
  split <;> rfl

/-- Every byte outside the stored word is kept. -/
theorem Memory.byteAt_writeWord_of_ne (m : Memory) (a v : Word) {k : Nat} (hl : k ≠ lowPlace a) (hh : k ≠ highPlace a) :
    Memory.byteAt (Memory.writeWord m a v) k = Memory.byteAt m k := by
  rw [Memory.byteAt_writeWord, if_neg hh, if_neg hl]

/-- The converse of `execLdr_next`. -/
theorem exec_ldr_of_admits {rd rs1 : RegIdx} {s : State}
    (hmap : mapAdmits s.platform.memMap .load (s.operandA rs1) = true)
    (hacc : s.acceptsWrite rd (Memory.readWord s.mem (s.operandA rs1)) = true) :
    exec (.ldr rd rs1) s =
      .next (((s.afterReading [rs1]).writeReg rd (Memory.readWord s.mem (s.operandA rs1))).jumpTo (s.pc + 1#16)) := by
  have hread := (memRead_eq_some s _ _).2 ⟨hmap, rfl⟩
  simp [exec, execLdr, hread, writeAndAdvance, writeAndJump_of_accepts, hacc]

theorem exec_ldrIo_of_accepts {rd rs1 : RegIdx} {s : State}
    (hacc : s.acceptsWrite rd (ioAnswer (s.afterReading [rs1])) = true) :
    exec (.ldrIo rd rs1) s =
      .next (((ioRead (s.afterReading [rs1]) (s.operandA rs1)).writeReg rd (ioAnswer (s.afterReading [rs1]))).jumpTo
        (s.pc + 1#16)) := by
  simp [exec, execLdrIo, writeAndAdvance, writeAndJump_of_accepts, hacc]

/-- The converse of `execStr_next`. -/
theorem exec_str_of_admits {rd rs1 : RegIdx} {s : State}
    (hmap : mapAdmits s.platform.memMap .store (s.operandA rd) = true) :
    exec (.str rd rs1) s =
      .next (State.afterReading { s with mem := Memory.writeWord s.mem (s.operandA rd) (s.operandB rs1) }
        [rd, rs1]).advance := by
  have hwrite := (memWrite_eq_some s _ (s.operandA rd) (s.operandB rs1)).2 ⟨hmap, rfl⟩
  simp [exec, execStr, hwrite]

theorem exec_strIo (rd rs1 : RegIdx) (s : State) :
    exec (.strIo rd rs1) s =
      .next (ioWrite (s.afterReading [rd, rs1]) (s.operandA rd) (s.operandB rs1)).advance := rfl

end Sys2Proof.Machine
end

section
/-! The statements about data transfer (40_data_transfer.md). -/

namespace Sys2Proof.Machine

/-- Settles O12: the completed load is one register write after its operand is read. -/
theorem ldrLoadsAWord : Obligations.LdrLoadsAWord := by
  refine ⟨fun r15 w _ h => decode_of_transferRow r15 false false h, fun rd rs1 s hmap hacc => ?_⟩
  obtain ⟨hregs, hrest⟩ := write_frame s [rs1] rd (Memory.readWord s.mem (s.operandA rs1)) (s.pc + 1#16)
  exact ⟨_, exec_ldr_of_admits hmap hacc, hregs, rfl, hrest⟩

/-- Settles O13: the word written and the word of the one event are the same answer. -/
theorem ldrIoReadsADevice : Obligations.LdrIoReadsADevice := by
  refine ⟨fun r15 w _ h => decode_of_transferRow r15 false true h, fun rd rs1 s hacc => ?_⟩
  refine ⟨_, ioAnswer (s.afterReading [rs1]), exec_ldrIo_of_accepts hacc, ?regs, ?io, rfl, ?mem, ?platform⟩
  case regs => intro r; simp [State.readReg_writeReg]
  case io => simp
  case mem => intro k; simp
  case platform => simp

/-- Settles O15: the store rewrites the two bytes of one word, and reading operands changes the draws at most. -/
theorem strStoresAWord : Obligations.StrStoresAWord := by
  refine ⟨fun r15 w _ h => decode_of_transferRow r15 true false h, fun rd rs1 s hmap => ?_⟩
  refine ⟨_, exec_str_of_admits hmap, ?words, ?bytes, ?regs, ?pc, ?io, ?draws, ?platform⟩
  case words => intro a; simp [Memory.readWord_writeWord]
  case bytes => intro k hl hh; simp [Memory.byteAt_writeWord_of_ne _ _ _ hl hh]
  case regs => intro r; simp
  case pc | io | draws | platform => simp

/-- Settles O17: an IO write is one event, whatever the operands are. -/
theorem strIoWritesADevice : Obligations.StrIoWritesADevice := by
  refine ⟨fun r15 w _ h => decode_of_transferRow r15 true true h, fun rd rs1 s => ?_⟩
  obtain ⟨hregs, hmem, hio, hdraws, hplatform⟩ := advance_frame s [rd, rs1]
  refine ⟨_, exec_strIo rd rs1 s, ?io, hregs, ?pc, hmem, hdraws, hplatform⟩
  case io | pc => simp

end Sys2Proof.Machine
end

section
/-! The words of the two jumps (41_control_flow.md R110, R111): IR[11:10] tells them apart, and IR[9] is an operand bit. -/

namespace Sys2Proof

/-- What a row that leaves IR[9] free fixes: opcode and extension. -/
theorem fields_of_extRow {w : Word} {op : BitVec 4} {ext : BitVec 2}
    (h : w &&& 0xFC00#16 = encXR op ext false 0#4 0#4) : irOpcode w = op ∧ irExt w = ext := by
  constructor
  · exact (extractLsb'_of_masked h (by decide)).trans (irOpcode_encXR ..)
  · exact (extractLsb'_of_masked h (by decide)).trans (irExt_encXR ..)

theorem decode_of_jmrRow {w : Word} (r15 : Word) (h : w &&& 0xFC00#16 = 0x2800#16) :
    decode r15 w = .jmr (irOpt w) (irRd w) (irRs1 w) := by
  obtain ⟨hop, hext⟩ := fields_of_extRow (op := 0b0010#4) (ext := 0b10#2) h
  rw [decode_of_irOpcode_two r15 hop]
  simp [decodeTransfer, hext]

theorem decode_of_jmiRow {w : Word} (r15 : Word) (h : w &&& 0xFC00#16 = 0x2C00#16) :
    decode r15 w = .jmi (irRd w) (irImm6 w) := by
  obtain ⟨hop, hext⟩ := fields_of_extRow (op := 0b0010#4) (ext := 0b11#2) h
  rw [decode_of_irOpcode_two r15 hop]
  simp [decodeTransfer, hext]

end Sys2Proof
end

section
/-! What the two jumps answer where they complete (41_control_flow.md R110, R111), and their targets in integers. -/

namespace Sys2Proof.Machine

theorem exec_jmr_noLink (rd rs1 : RegIdx) (s : State) :
    exec (.jmr false rd rs1) s = .next ((s.afterReading [rs1]).jumpTo (s.pc + s.operandA rs1)) := rfl

theorem exec_jmr_link_of_accepts {rd : RegIdx} {s : State} (rs1 : RegIdx)
    (hacc : s.acceptsWrite rd (s.pc + 1#16) = true) :
    exec (.jmr true rd rs1) s =
      .next (((s.afterReading [rs1]).writeReg rd (s.pc + 1#16)).jumpTo (s.pc + s.operandA rs1)) := by
  simp [exec, execJmr, writeAndJump_of_accepts, hacc]

theorem exec_jmi_of_accepts {rd : RegIdx} {s : State} (imm6 : BitVec 6)
    (hacc : s.acceptsWrite rd (s.pc + 1#16) = true) :
    exec (.jmi rd imm6) s = .next ((s.writeReg rd (s.pc + 1#16)).jumpTo (s.pc + sext6 imm6)) := by
  simp [exec, execJmi, writeAndJump_of_accepts, hacc]

/-- The link, as the number the rules give. -/
theorem ofNat_pc_add_one (s : State) : BitVec.ofNat 16 (s.pc.toNat + 1) = s.pc + 1#16 :=
  (BitVec.add_def s.pc 1#16).symm

/-- A word plus a sign-extended immediate is the sum of the integers, mod 2^16. -/
theorem add_sext6_eq_ofInt (a : Word) (imm6 : BitVec 6) :
    a + sext6 imm6 = BitVec.ofInt 16 (a.toNat + imm6.toInt) := by
  rw [BitVec.ofInt_add, BitVec.ofInt_natCast, BitVec.ofNat_toNat, BitVec.setWidth_eq]
  rfl

end Sys2Proof.Machine
end

section
/-! The statements about jumps (41_control_flow.md). -/

namespace Sys2Proof.Machine

/-- Settles O19: without the Save PC bit JMR is a jump alone, with it one register write and the same jump, whose offset
is read before the write. -/
theorem jmrJumpsRelative : Obligations.JmrJumpsRelative := by
  refine ⟨fun r15 w _ h => decode_of_jmrRow r15 h, fun rd rs1 s => ⟨?noLink, fun hacc => ?link⟩⟩
  case noLink =>
    obtain ⟨hregs, hrest⟩ := jumpTo_frame s [rs1] (s.pc + s.operandA rs1)
    exact ⟨_, exec_jmr_noLink rd rs1 s, hregs, BitVec.add_def .., hrest⟩
  case link =>
    rw [ofNat_pc_add_one] at hacc ⊢
    obtain ⟨hregs, hrest⟩ := write_frame s [rs1] rd (s.pc + 1#16) (s.pc + s.operandA rs1)
    exact ⟨_, exec_jmr_link_of_accepts rs1 hacc, hregs, BitVec.add_def .., hrest⟩

/-- Settles O20: JMI reads no register, so it is one register write and a jump. -/
theorem jmiJumpsAndLinks : Obligations.JmiJumpsAndLinks := by
  refine ⟨fun r15 w _ h => decode_of_jmiRow r15 h, fun rd imm6 s hacc => ?_⟩
  rw [ofNat_pc_add_one] at hacc ⊢
  obtain ⟨hregs, hrest⟩ := write_frame s [] rd (s.pc + 1#16) (s.pc + sext6 imm6)
  rw [State.afterReading_nil] at hregs hrest
  exact ⟨_, exec_jmi_of_accepts imm6 hacc, hregs, add_sext6_eq_ofInt s.pc imm6, hrest⟩

end Sys2Proof.Machine
end

section
/-! The words of the AND, move, add and subtract rows (30_encoding.md R81): each row fixes the opcode alone, and a shadow
bit tells ANI, ADI and SUI from their shadows, MSI from its own. -/

namespace Sys2Proof

/-- What a row that fixes nothing but the opcode fixes. -/
theorem irOpcode_of_opRow {w : Word} {op : BitVec 4} (h : w &&& 0xF000#16 = op ++ 0#12) : irOpcode w = op :=
  (extractLsb'_of_masked h (by decide)).trans (irOpcode_reserved op 0#12)

theorem decode_of_anrRow {w : Word} (r15 : Word) (h : w &&& 0xF000#16 = 0x3000#16) :
    decode r15 w = .anr (irRd w) (irRs1 w) (irRs2 w) := by
  simp [decode, irOpcode_of_opRow (op := 0b0011#4) h]

theorem decode_of_aniRow {w : Word} (r15 : Word) (h : w &&& 0xF000#16 = 0x4000#16) :
    decode r15 w = if shRI r15 then .anir (irRd w) (irRs1 w) (irRs2 w) else .ani (irRd w) (irImm8 w) := by
  simp [decode, irOpcode_of_opRow (op := 0b0100#4) h]

theorem decode_of_msiRow {w : Word} (r15 : Word) (h : w &&& 0xF000#16 = 0x5000#16) :
    decode r15 w = if shMsi r15 then .msiShadow (irRd w) (irImm8 w) else .msi (irRd w) (irImm8 w) := by
  simp [decode, irOpcode_of_opRow (op := 0b0101#4) h]

theorem decode_of_mhiRow {w : Word} (r15 : Word) (h : w &&& 0xF000#16 = 0x6000#16) :
    decode r15 w = .mhi (irRd w) (irImm8 w) := by
  simp [decode, irOpcode_of_opRow (op := 0b0110#4) h]

theorem decode_of_adrRow {w : Word} (r15 : Word) (h : w &&& 0xF000#16 = 0x9000#16) :
    decode r15 w = .adr (irRd w) (irRs1 w) (irRs2 w) := by
  simp [decode, irOpcode_of_opRow (op := 0b1001#4) h]

theorem decode_of_surRow {w : Word} (r15 : Word) (h : w &&& 0xF000#16 = 0xA000#16) :
    decode r15 w = .sur (irRd w) (irRs1 w) (irRs2 w) := by
  simp [decode, irOpcode_of_opRow (op := 0b1010#4) h]

theorem decode_of_adiRow {w : Word} (r15 : Word) (h : w &&& 0xF000#16 = 0xB000#16) :
    decode r15 w = if shRI r15 then .adir (irRd w) (irRs1 w) (irRs2 w) else .adi (irRd w) (irImm8 w) := by
  simp [decode, irOpcode_of_opRow (op := 0b1011#4) h]

theorem decode_of_suiRow {w : Word} (r15 : Word) (h : w &&& 0xF000#16 = 0xC000#16) :
    decode r15 w = if shRI r15 then .suir (irRd w) (irRs1 w) (irRs2 w) else .sui (irRd w) (irImm8 w) := by
  simp [decode, irOpcode_of_opRow (op := 0b1100#4) h]

/-- The shadow form of a row, where its shadow bit is 1. -/
theorem shadowForm_of_set {b : Bool} {i shadow base : Instr} (h : i = if b then shadow else base) (hb : b = true) :
    i = shadow :=
  h.trans (if_pos hb)

/-- The base form of a row, where its shadow bit is 0. -/
theorem baseForm_of_clear {b : Bool} {i shadow base : Instr} (h : i = if b then shadow else base)
    (hb : (!b) = true) : i = base :=
  h.trans (if_neg (by simpa using hb))

end Sys2Proof
end

section
/-! What an instruction that writes one register and goes on answers, and its result in integers
(42_logic_move_shift_add.md R130 to R145). -/

namespace Sys2Proof.Machine

/-- The answer `r` is a next state at the next word, `rd` holds `v` there, and nothing else changes but what reading the
operands `reads` draws. -/
def CompletesWith (reads : List RegIdx) (rd : RegIdx) (v : Word) (s : State) (r : Result) : Prop :=
  ∃ t, r = .next t ∧ t.pc = s.pc + 1#16 ∧ KeepsRest reads s t ∧ WritesReg rd v s t

theorem writeAndAdvance_completes {rd : RegIdx} {v : Word} {s : State} (reads : List RegIdx)
    (hacc : s.acceptsWrite rd v = true) :
    CompletesWith reads rd v s (writeAndAdvance rd v (s.afterReading reads)) := by
  obtain ⟨hregs, hrest⟩ := write_frame s reads rd v (s.pc + 1#16)
  exact ⟨_, by simp [writeAndAdvance, writeAndJump_of_accepts, hacc], rfl, hrest, hregs⟩

theorem unary_completes (f : Word → Word) {rd rs : RegIdx} {v : Word} {s : State} (hv : f (s.operandA rs) = v)
    (hacc : s.acceptsWrite rd v = true) : CompletesWith [rs] rd v s (unary f rd rs s) := by
  subst hv
  exact writeAndAdvance_completes [rs] hacc

theorem binary_completes (f : Word → Word → Word) {rd rs1 rs2 : RegIdx} {v : Word} {s : State}
    (hv : f (s.operandA rs1) (s.operandB rs2) = v) (hacc : s.acceptsWrite rd v = true) :
    CompletesWith [rs1, rs2] rd v s (binary f rd rs1 rs2 s) := by
  subst hv
  exact writeAndAdvance_completes [rs1, rs2] hacc

/-- Adding an integer kept mod 2^16 is adding it exactly. -/
theorem add_ofInt (a : Word) (k : Int) : a + BitVec.ofInt 16 k = BitVec.ofInt 16 (a.toNat + k) := by
  rw [BitVec.ofInt_add, BitVec.ofInt_natCast, BitVec.ofNat_toNat, BitVec.setWidth_eq]

/-- Subtracting an integer kept mod 2^16 is subtracting it exactly. -/
theorem sub_ofInt (a : Word) (k : Int) : a - BitVec.ofInt 16 k = BitVec.ofInt 16 (a.toNat - k) := by
  rw [BitVec.sub_eq_add_neg, ← BitVec.ofInt_neg, add_ofInt, Int.sub_eq_add_neg]

/-- MHI in integers (R137). -/
theorem withHighByte_eq_ofNat (old : Word) (imm8 : BitVec 8) :
    withHighByte old imm8 = BitVec.ofNat 16 (imm8.toNat * 256 + old.toNat % 256) := by
  have hlow : (old.extractLsb' 0 8).toNat = old.toNat % 256 := by simp
  apply BitVec.eq_of_toNat_eq
  rw [withHighByte, BitVec.toNat_append, ← Nat.shiftLeft_add_eq_or_of_lt (BitVec.isLt _), hlow, Nat.shiftLeft_eq]
  rw [BitVec.toNat_ofNat]
  omega

end Sys2Proof.Machine
end

section
/-! The statements about AND, moves of immediates, add and subtract (42_logic_move_shift_add.md). -/

namespace Sys2Proof.Machine

/-- Settles O27: ANR is a two-operand instruction. -/
theorem anrAnds : Obligations.AnrAnds :=
  ⟨fun r15 _ _ h => decode_of_anrRow r15 h, fun _ _ _ _ hacc => binary_completes (fun a b => a &&& b) rfl hacc⟩

/-- Settles O28: zero extension keeps the immediate's unsigned reading. -/
theorem aniAndsAByte : Obligations.AniAndsAByte := by
  refine ⟨fun r15 _ hsh h => baseForm_of_clear (decode_of_aniRow r15 h) hsh, fun rd imm8 s hacc => ?_⟩
  have himm : BitVec.ofNat 16 imm8.toNat = zext8 imm8 := BitVec.ofNat_toNat 16 imm8
  rw [himm] at hacc ⊢
  exact unary_completes (fun a => a &&& zext8 imm8) rfl hacc

/-- Settles O29: as O28, with another register as the source. -/
theorem anirAndsFourBits : Obligations.AnirAndsFourBits := by
  refine ⟨fun r15 _ hsh h => shadowForm_of_set (decode_of_aniRow r15 h) hsh, fun rd rs1 imm4 s hacc => ?_⟩
  have himm : BitVec.ofNat 16 imm4.toNat = zext4 imm4 := BitVec.ofNat_toNat 16 imm4
  rw [himm] at hacc ⊢
  exact unary_completes (fun a => a &&& zext4 imm4) rfl hacc

/-- Settles O30: MSI reads no register, so nothing is drawn before its write. -/
theorem msiMovesASignedByte : Obligations.MsiMovesASignedByte := by
  refine ⟨fun r15 _ hsh h => baseForm_of_clear (decode_of_msiRow r15 h) hsh, fun rd imm8 s hacc => ?_⟩
  have hwrite := writeAndAdvance_completes [] hacc
  rwa [State.afterReading_nil] at hwrite

/-- Settles O32: the two bytes of the result are the digits of one number in base 256. -/
theorem mhiReplacesTheHighByte : Obligations.MhiReplacesTheHighByte :=
  ⟨fun r15 _ _ h => decode_of_mhiRow r15 h, fun _ imm8 _ hacc =>
    unary_completes (fun a => withHighByte a imm8) (withHighByte_eq_ofNat ..) hacc⟩

/-- Settles O34: the second operand is added and subtracted as its unsigned reading. -/
theorem registerAddAndSubtract : Obligations.RegisterAddAndSubtract := by
  refine ⟨fun r15 _ _ h => decode_of_adrRow r15 h, fun r15 _ _ h => decode_of_surRow r15 h,
    fun rd rs1 rs2 s => ⟨fun hacc => ?add, fun hacc => ?sub⟩⟩
  case add => exact binary_completes (fun a b => a + b) (by simp [← add_ofInt]) hacc
  case sub => exact binary_completes (fun a b => a - b) (by simp [← sub_ofInt]) hacc

/-- Settles O35: the sign-extended immediate is its signed reading kept mod 2^16. -/
theorem immediateAddAndSubtract : Obligations.ImmediateAddAndSubtract := by
  refine ⟨fun r15 _ hsh h => baseForm_of_clear (decode_of_adiRow r15 h) hsh,
    fun r15 _ hsh h => baseForm_of_clear (decode_of_suiRow r15 h) hsh,
    fun rd imm8 s => ⟨fun hacc => ?add, fun hacc => ?sub⟩⟩
  case add => exact unary_completes (fun a => a + sext8 imm8) (add_ofInt _ imm8.toInt) hacc
  case sub => exact unary_completes (fun a => a - sext8 imm8) (sub_ofInt _ imm8.toInt) hacc

/-- Settles O36: as O35, with another register as the source. -/
theorem shadowAddAndSubtract : Obligations.ShadowAddAndSubtract := by
  refine ⟨fun r15 _ hsh h => shadowForm_of_set (decode_of_adiRow r15 h) hsh,
    fun r15 _ hsh h => shadowForm_of_set (decode_of_suiRow r15 h) hsh,
    fun rd rs1 imm4 s => ⟨fun hacc => ?add, fun hacc => ?sub⟩⟩
  case add => exact unary_completes (fun a => a + sext4 imm4) (add_ofInt _ imm4.toInt) hacc
  case sub => exact unary_completes (fun a => a - sext4 imm4) (sub_ofInt _ imm4.toInt) hacc

end Sys2Proof.Machine
end

section
/-! The words of the multiplies and of the complements (30_encoding.md R81): one row for MUL, MULS and MULL, told apart by
R15[13:12], and IR[9] between NTR and NTD. -/

namespace Sys2Proof

/-- R15[13] alone makes a multiply a MULL; R15[12] is looked at only where it is 0 (R163). -/
theorem decode_of_multiplyRow {w : Word} (r15 : Word) (h : w &&& 0xF000#16 = 0xD000#16) :
    decode r15 w =
      if shMull r15 then .mull (irRd w) (irRs1 w) (irRs2 w)
      else if shSigned r15 then .muls (irRd w) (irRs1 w) (irRs2 w)
      else .mul (irRd w) (irRs1 w) (irRs2 w) := by
  simp [decode, irOpcode_of_opRow (op := 0b1101#4) h]

theorem decode_of_irOpcode_fifteen {w : Word} (r15 : Word) (h : irOpcode w = 0b1111#4) :
    decode r15 w = decodeExtended r15 w := by
  simp [decode, h]

/-- IR[9] is 1 where `rd` itself is the source, which is NTD. -/
theorem decode_of_complementRow {w : Word} (r15 : Word) (ownSource : Bool)
    (h : w &&& 0xFE00#16 = encXR 0b1111#4 0b11#2 ownSource 0#4 0#4) :
    decode r15 w = if ownSource then .ntd (irC w) (irRd w) else .ntr (irC w) (irRd w) (irRs1 w) := by
  obtain ⟨hop, hext, hopt⟩ := fields_of_xrRow h
  rw [decode_of_irOpcode_fifteen r15 hop]
  simp [decodeExtended, hext, hopt]

end Sys2Proof
end

section
/-! The results of MULL and of the complements in integers, and what a multiply that keeps the low half alone answers
(43_mul_div_shi_not.md R162, R163, R171, R172). -/

namespace Sys2Proof.Machine

theorem lowHalf_product_unsigned (a b : Word) : lowHalf (product false a b) = BitVec.ofNat 16 (a.toNat * b.toNat) := by
  apply BitVec.eq_of_toNat_eq
  simp [lowHalf, product]

/-- The signed and the unsigned product agree mod 2^16 (R163): both are the product of the words. -/
theorem ofInt_toInt_mul_toInt (a b : Word) : BitVec.ofInt 16 (a.toInt * b.toInt) = BitVec.ofNat 16 (a.toNat * b.toNat) := by
  calc BitVec.ofInt 16 (a.toInt * b.toInt)
      = a * b := by rw [BitVec.ofInt_mul, BitVec.ofInt_toInt, BitVec.ofInt_toInt]
    _ = BitVec.ofNat 16 (a.toNat * b.toNat) := BitVec.mul_def

/-- The complements are subtractions in integers, from 0 and from 0xFFFF (R171). -/
theorem complement_eq_ofInt (c : Bool) (a : Word) :
    complement c a = BitVec.ofInt 16 (if c then 0 - a.toNat else 0xFFFF - a.toNat) := by
  have hsub (k : Word) : BitVec.ofInt 16 (k.toNat - a.toNat) = k - a := by simp [← sub_ofInt]
  cases c
  case true =>
    calc complement true a
        = 0#16 - a := by simp [complement, BitVec.neg_eq_not_add]
      _ = BitVec.ofInt 16 (0 - a.toNat) := (hsub 0#16).symm
  case false =>
    calc complement false a
        = BitVec.allOnes 16 - a := (BitVec.allOnes_sub_eq_not a).symm
      _ = BitVec.ofInt 16 (0xFFFF - a.toNat) := (hsub 0xFFFF#16).symm

/-- The high half is neither written nor asked whether R15 accepts it. -/
theorem multiply_lowOnly_completes {signed : Bool} {rd rs1 rs2 : RegIdx} {v : Word} {s : State}
    (hv : lowHalf (product signed (s.operandA rs1) (s.operandB rs2)) = v) (hacc : s.acceptsWrite rd v = true) :
    CompletesWith [rs1, rs2] rd v s (multiply signed true rd rs1 rs2 s) := by
  subst hv
  obtain ⟨hregs, hrest⟩ := writeFirst_frame s [rs1, rs2] rd (lowHalf (product signed (s.operandA rs1) (s.operandB rs2)))
    (highHalf (product signed (s.operandA rs1) (s.operandB rs2)))
  exact ⟨_, writePairAndAdvance_of_accepts (by simpa using hacc) (.inl rfl), by simp, hrest, hregs⟩

end Sys2Proof.Machine
end

section
/-! The statements about MULL and the complements (43_mul_div_shi_not.md). -/

namespace Sys2Proof.Machine

/-- Settles O39: the low half is the product mod 2^16, which both readings of the operands give. -/
theorem mullWritesTheLowHalf : Obligations.MullWritesTheLowHalf := by
  refine ⟨fun r15 _ hsh h => shadowForm_of_set (decode_of_multiplyRow r15 h) hsh, fun rd rs1 rs2 s hacc => ?_⟩
  obtain ⟨t, hexec, hpc, hrest, hregs⟩ := multiply_lowOnly_completes (lowHalf_product_unsigned ..) hacc
  refine ⟨t, hexec, hpc, hrest, hregs, ?_⟩
  rwa [ofInt_toInt_mul_toInt]

/-- Settles O45: NTR and NTD complement one operand, and differ in the register it comes from. -/
theorem complementsComplement : Obligations.ComplementsComplement := by
  refine ⟨fun r15 _ _ h => decode_of_complementRow r15 false h, fun r15 _ _ h => decode_of_complementRow r15 true h,
    fun c rd rs1 s => ⟨fun hacc => ?ntr, fun hacc => ?ntd⟩⟩
  case ntr | ntd => exact unary_completes (complement c) (complement_eq_ofInt c _) hacc

end Sys2Proof.Machine
end

section
/-! A word is its fields in the order of its format (30_encoding.md R71 to R78), and which bits no field covers, in
terms of the opcode, the extension and IR[9] (R85). -/

namespace Sys2Proof

/-- Format RRR covers every bit. -/
theorem encRRR_fields (w : Word) : encRRR (irOpcode w) (irRs2 w) (irRs1 w) (irRd w) = w := by
  apply BitVec.eq_of_getLsbD_eq; intro i hi
  simp only [encRRR, irOpcode, irRs2, irRs1, irRd, BitVec.getLsbD_append, BitVec.getLsbD_extractLsb']
  interval_cases i <;> rfl

/-- Format RI4 is format RRR with an immediate in the place of rs2. -/
theorem encRI4_fields (w : Word) : encRI4 (irOpcode w) (irRs2 w) (irRs1 w) (irRd w) = w := encRRR_fields w

/-- Format RI8 covers every bit. -/
theorem encRI8_fields (w : Word) : encRI8 (irOpcode w) (irImm8 w) (irRd w) = w := by
  apply BitVec.eq_of_getLsbD_eq; intro i hi
  simp only [encRI8, irOpcode, irImm8, irRd, BitVec.getLsbD_append, BitVec.getLsbD_extractLsb']
  interval_cases i <;> rfl

theorem reserved_fields (w : Word) : irOpcode w ++ irLow w = w := by
  apply BitVec.eq_of_getLsbD_eq; intro i hi
  simp only [irOpcode, irLow, BitVec.getLsbD_append, BitVec.getLsbD_extractLsb']
  interval_cases i <;> rfl

/-- Format XR covers every bit but IR[8]. -/
theorem encXR_fields (w : Word) :
    encXR (irOpcode w) (irExt w) (irOpt w) (irRs1 w) (irRd w) = w &&& ~~~ 0x0100#16 := by
  apply BitVec.eq_of_getLsbD_eq; intro i hi
  simp only [encXR, irOpcode, irExt, irOpt, irRs1, irRd, BitVec.getLsbD_append, BitVec.getLsbD_extractLsb',
    BitVec.getLsbD_and]
  interval_cases i <;> simp

/-- Format J6 covers every bit. -/
theorem encJ6_fields {w : Word} (hop : irOpcode w = 0b0010#4) (hext : irExt w = 0b11#2) :
    encJ6 (irImm6 w) (irRd w) = w := by
  apply BitVec.eq_of_getLsbD_eq; intro i hi
  simp only [encJ6, ← hop, ← hext, irOpcode, irExt, irImm6, irRd, BitVec.getLsbD_append, BitVec.getLsbD_extractLsb']
  interval_cases i <;> rfl

/-- Format X5 covers every bit. -/
theorem encX5_fields {w : Word} (hop : irOpcode w = 0b1111#4) : encX5 (irExt w) (irOpt w) (irF5 w) (irRd w) = w := by
  apply BitVec.eq_of_getLsbD_eq; intro i hi
  simp only [encX5, ← hop, irOpcode, irExt, irOpt, irF5, irRd, BitVec.getLsbD_append, BitVec.getLsbD_extractLsb']
  interval_cases i <;> simp

/-- Format N covers every bit. -/
theorem encN_fields {w : Word} (hop : irOpcode w = 0b1111#4) (hext : irExt w = 0b11#2) :
    encN (irOpt w) (irC w) (irRs1 w) (irRd w) = w := by
  apply BitVec.eq_of_getLsbD_eq; intro i hi
  simp only [encN, ← hop, ← hext, irOpcode, irExt, irOpt, irC, irRs1, irRd, BitVec.getLsbD_append,
    BitVec.getLsbD_extractLsb']
  interval_cases i <;> simp

/-- NTD leaves rs1 of format N empty, which is IR[7:4]. -/
theorem encN_zero (d c : Bool) (rs1 rd : RegIdx) : encN d c 0#4 rd = encN d c rs1 rd &&& ~~~ 0x00F0#16 := by
  apply BitVec.eq_of_getLsbD_eq; intro i hi
  simp only [encN, BitVec.getLsbD_append, BitVec.getLsbD_and]
  interval_cases i <;> simp

/-- A mask that leaves IR[8:0] free looks at the opcode, the extension and IR[9] only. -/
theorem and_highMask (w : Word) (mask : BitVec 7) :
    w &&& (mask ++ 0#9) = ((irOpcode w ++ irExt w ++ BitVec.ofBool (irOpt w)) &&& mask) ++ 0#9 := by
  apply BitVec.eq_of_getLsbD_eq; intro i hi
  simp only [irOpcode, irExt, irOpt, BitVec.getLsbD_append, BitVec.getLsbD_and, BitVec.getLsbD_extractLsb']
  interval_cases i <;> simp

theorem and_highMask_eq_iff (w : Word) (mask pattern : BitVec 7) :
    w &&& (mask ++ 0#9) = pattern ++ 0#9 ↔
      (irOpcode w ++ irExt w ++ BitVec.ofBool (irOpt w)) &&& mask = pattern := by
  rw [and_highMask, BitVec.append_left_inj]

/-- Opcode 0010 has an uncovered bit but in JMI, opcode 1111 in the register compares and in NTD, and no other has. -/
theorem fieldlessBits_eq (w : Word) :
    fieldlessBits w =
      if irOpcode w = 0b0010#4 ∧ irExt w ≠ 0b11#2 ∨
          irOpcode w = 0b1111#4 ∧ irExt w = 0b00#2 ∧ irOpt w = false then
        0x0100#16
      else if irOpcode w = 0b1111#4 ∧ irExt w = 0b11#2 ∧ irOpt w = true then 0x00F0#16
      else 0x0000#16 := by
  have htransfer := and_highMask_eq_iff w 0b1111100#7 0b0010000#7
  have hjmr := and_highMask_eq_iff w 0b1111110#7 0b0010100#7
  have hcompare := and_highMask_eq_iff w 0b1111111#7 0b1111000#7
  have hntd := and_highMask_eq_iff w 0b1111111#7 0b1111111#7
  simp only [BitVec.reduceAppend] at htransfer hjmr hcompare hntd
  simp only [fieldlessBits, htransfer, hjmr, hcompare, hntd]
  generalize irOpcode w = op, irExt w = ext, irOpt w = opt
  revert op ext opt
  decide

end Sys2Proof
end

section
/-! The round trip between words and instructions, in both directions (30_encoding.md R80 to R85). -/

namespace Sys2Proof

/-- The decoder reads back the opcode, the extension, IR[9] and the fields of each format, and asks the shadow bits. -/
theorem decode_encode {r15 : Word} {i : Instr} (h : i.selectedBy r15 = true) : decode r15 (encode i) = i := by
  cases i with
  | ldr | ldrIo | str | strIo | jmr | jmi => simp [encode, decode, decodeTransfer]
  | brc | brr | shi | ntr | ntd => simp [encode, decode, decodeExtended]
  | cmr | cmi | cmrs | cmis => simp_all [Instr.selectedBy, encode, decode, decodeExtended]
  | reserved0 | reserved1 | anr | mhi | slr | sar | adr | sur => simp [encode, decode]
  | ani | msi | adi | sui | anir | msiShadow | adir | suir | mul | muls | mull | div | divs | divq =>
    simp_all [Instr.selectedBy, encode, decode]

/-- The four values of the opcode extension. -/
theorem ext_cases (ext : BitVec 2) : ext = 0b00#2 ∨ ext = 0b01#2 ∨ ext = 0b10#2 ∨ ext = 0b11#2 := by
  revert ext; decide

/-- What is left of a word without the bits no field covers. -/
theorem and_not_fieldlessBits (w : Word) :
    w &&& ~~~ fieldlessBits w =
      if irOpcode w = 0b0010#4 ∧ irExt w ≠ 0b11#2 ∨
          irOpcode w = 0b1111#4 ∧ irExt w = 0b00#2 ∧ irOpt w = false then
        encXR (irOpcode w) (irExt w) (irOpt w) (irRs1 w) (irRd w)
      else if irOpcode w = 0b1111#4 ∧ irExt w = 0b11#2 ∧ irOpt w = true then w &&& ~~~ 0x00F0#16
      else w := by
  rw [fieldlessBits_eq, encXR_fields]
  split
  · rfl
  · split
    · rfl
    · exact BitVec.and_allOnes

theorem encode_decodeTransfer {w : Word} (hop : irOpcode w = 0b0010#4) :
    encode (decodeTransfer w) = w &&& ~~~ fieldlessBits w := by
  rw [and_not_fieldlessBits]
  rcases ext_cases (irExt w) with hext | hext | hext | hext
  case inr.inr.inl => simp [decodeTransfer, encode, hop, hext]
  case inr.inr.inr => simp [decodeTransfer, encode, hop, hext, encJ6_fields]
  all_goals cases hopt : irOpt w <;> simp [decodeTransfer, encode, hop, hext, hopt]

theorem encode_decodeExtended {w : Word} (r15 : Word) (hop : irOpcode w = 0b1111#4) :
    encode (decodeExtended r15 w) = w &&& ~~~ fieldlessBits w := by
  rw [and_not_fieldlessBits]
  have hx5 := encX5_fields hop
  rcases ext_cases (irExt w) with hext | hext | hext | hext
  case inl =>
    cases hsh : shCmps r15 <;> cases hopt : irOpt w <;> simp_all [decodeExtended, encode]
  case inr.inl => cases hopt : irOpt w <;> simp_all [decodeExtended, encode]
  case inr.inr.inl => simp_all [decodeExtended, encode]
  case inr.inr.inr =>
    have hn := encN_fields hop hext
    cases hopt : irOpt w
    case false => simp_all [decodeExtended, encode]
    case true =>
      rw [hopt] at hn
      simp [decodeExtended, encode, hop, hext, hopt, encN_zero _ _ (irRs1 w), hn]

/-- The opcode is the numeral that the decoder looks at. -/
theorem irOpcode_eq_of_toNat {w : Word} {n : Nat} (h : (irOpcode w).toNat = n) : irOpcode w = BitVec.ofNat 4 n := by
  rw [← h, BitVec.ofNat_toNat, BitVec.setWidth_eq]

/-- The opcode that is left when the decoder has looked at all others. -/
theorem irOpcode_eq_fifteen {w : Word} (h : 15 ≤ (irOpcode w).toNat) : irOpcode w = 0b1111#4 :=
  irOpcode_eq_of_toNat (by have := (irOpcode w).isLt; omega)

/-- An opcode other than 0010 and 1111 is of one format, which covers every bit, whatever the shadow bits say. -/
theorem encode_decode (r15 w : Word) : encode (decode r15 w) = w &&& ~~~ fieldlessBits w := by
  have hrrr := encRRR_fields w
  have hri4 := encRI4_fields w
  have hri8 := encRI8_fields w
  have hlow := reserved_fields w
  have hplain (h2 : irOpcode w ≠ 0b0010#4) (h15 : irOpcode w ≠ 0b1111#4) : w &&& ~~~ fieldlessBits w = w := by
    simp [and_not_fieldlessBits, h2, h15]
  unfold decode
  split
  case h_3 h => exact encode_decodeTransfer (irOpcode_eq_of_toNat h)
  case h_16 =>
    exact encode_decodeExtended r15 (irOpcode_eq_fifteen (by simp only [imp_false] at *; omega))
  case h_1 h | h_2 h | h_4 h | h_7 h | h_8 h | h_9 h | h_10 h | h_11 h =>
    have hop := irOpcode_eq_of_toNat h
    rw [hplain (by simp [hop]) (by simp [hop])]
    simp_all [encode]
  case h_5 h | h_6 h | h_12 h | h_13 h | h_14 h | h_15 h =>
    have hop := irOpcode_eq_of_toNat h
    rw [hplain (by simp [hop]) (by simp [hop])]
    split_ifs <;> simp_all [encode]

theorem decodeTransfer_selectedBy (r15 w : Word) : (decodeTransfer w).selectedBy r15 = true := by
  unfold decodeTransfer
  split_ifs <;> rfl

theorem decodeExtended_selectedBy (r15 w : Word) : (decodeExtended r15 w).selectedBy r15 = true := by
  unfold decodeExtended
  split_ifs <;> simp_all [Instr.selectedBy]

/-- The decoder picks the row that the shadow bits select. -/
theorem decode_selectedBy (r15 w : Word) : (decode r15 w).selectedBy r15 = true := by
  unfold decode
  split
  case h_3 => exact decodeTransfer_selectedBy r15 w
  case h_16 => exact decodeExtended_selectedBy r15 w
  case h_1 | h_2 | h_4 | h_7 | h_8 | h_9 | h_10 | h_11 => rfl
  all_goals split_ifs <;> simp_all [Instr.selectedBy]

/-- Settles O2: the round trip from an instruction to its word and back. -/
theorem decodeOfEncodeIsTheInstruction : Obligations.DecodeOfEncodeIsTheInstruction := fun _ _ => decode_encode

/-- Settles O3: each format covers all of its word but the fieldless bits, and the decoder asks the shadow bits. -/
theorem encodeOfDecodeIsTheWord : Obligations.EncodeOfDecodeIsTheWord := fun r15 w =>
  ⟨encode_decode r15 w, decode_selectedBy r15 w⟩

end Sys2Proof
end

section
/-! The statements about bits without a field, the shadow bits and the reserved opcodes (30_encoding.md R82 to R85), and
about the words the spec writes out (95_test_vectors.md 1.1). -/

namespace Sys2Proof

open Machine

/-- Every row is selected by some R15. -/
theorem Instr.exists_selectedBy (i : Instr) : ∃ r15, i.selectedBy r15 = true := by
  cases i with
  | anir | adir | suir => exact ⟨0x8000#16, rfl⟩
  | msiShadow => exact ⟨0x4000#16, rfl⟩
  | mull => exact ⟨0x2000#16, rfl⟩
  | muls | divs => exact ⟨0x1000#16, rfl⟩
  | divq => exact ⟨0x0800#16, rfl⟩
  | cmrs | cmis => exact ⟨0x0400#16, rfl⟩
  | _ => exact ⟨0x0000#16, rfl⟩

/-- A word is what is left of it without some bits exactly where those bits are 0. -/
theorem and_eq_zero_iff_eq_and_not (w bits : Word) : w &&& bits = 0#16 ↔ w = w &&& ~~~ bits := by
  constructor
  · intro h
    calc w = w ^^^ (w &&& bits) := by rw [h, BitVec.xor_zero]
      _ = w &&& ~~~ bits := by ext b hb; simp; cases w[b] <;> simp
  · intro h
    calc w &&& bits = w &&& (~~~ bits &&& bits) := by rw [← BitVec.and_assoc, ← h]
      _ = 0#16 := by simp

/-- The encoder emits 0 in the bits no field covers (R85). -/
theorem encode_and_fieldlessBits (i : Instr) : encode i &&& fieldlessBits (encode i) = 0#16 := by
  obtain ⟨r15, hsel⟩ := i.exists_selectedBy
  have hword := encode_decode r15 (encode i)
  rw [decode_encode hsel] at hword
  exact (and_eq_zero_iff_eq_and_not ..).2 hword

/-- Settles O4: a word and its image under the round trip decode alike, and the image has no fieldless bit. -/
theorem bitsNoFieldCoversHaveNoEffect : Obligations.BitsNoFieldCoversHaveNoEffect := by
  refine ⟨fun r15 w w' h => ?decode, fun rd rd' rs1 s => rfl, fun s w => ⟨?ignore, ?zero, fun i => ?encoded⟩⟩
  case decode =>
    rw [← encode_decode r15, ← encode_decode r15] at h
    rw [← decode_encode (decode_selectedBy r15 w), h, decode_encode (decode_selectedBy r15 w')]
  case ignore => intro h; simp [acceptsWord, h]
  case zero => intro h; simp [acceptsWord, h, and_eq_zero_iff_eq_and_not]
  case encoded => simp [acceptsWord, encode_and_fieldlessBits]

/-- The shadow bits are the high six bits of R15. -/
theorem decode_of_shadowBits_eq {r15 r15' : Word} (w : Word) (h : r15.extractLsb' 10 6 = r15'.extractLsb' 10 6) :
    decode r15 w = decode r15' w := by
  have hbit : ∀ b < 6, r15.getLsbD (10 + b) = r15'.getLsbD (10 + b) := fun b hb => by
    simpa [hb] using congrArg (·.getLsbD b) h
  have hri : shRI r15 = shRI r15' := hbit 5 (by decide)
  have hmsi : shMsi r15 = shMsi r15' := hbit 4 (by decide)
  have hmull : shMull r15 = shMull r15' := hbit 3 (by decide)
  have hsigned : shSigned r15 = shSigned r15' := hbit 2 (by decide)
  have hdivq : shDivq r15 = shDivq r15' := hbit 1 (by decide)
  have hcmps : shCmps r15 = shCmps r15' := hbit 0 (by decide)
  simp only [decode, decodeExtended, hri, hmsi, hmull, hsigned, hdivq, hcmps]

/-- Settles O5: the decoder looks at a shadow bit under the shadowed opcodes, and under 1111 with extension 00. -/
theorem decodingReadsOnlyTheShadowBits : Obligations.DecodingReadsOnlyTheShadowBits := by
  refine ⟨fun r15 r15' w h => decode_of_shadowBits_eq w h, fun r15 r15' w hop hext => ?_⟩
  have hfields : w.extractLsb' 10 6 = irOpcode w ++ irExt w :=
    (BitVec.extractLsb'_append_extractLsb'_eq_extractLsb' (start₁ := 10) (len₁ := 2) rfl).symm
  change irOpcode w ∉ _ at hop
  unfold decode
  split
  case h_16 =>
    have hop15 : irOpcode w = 0b1111#4 := irOpcode_eq_fifteen (by simp only [imp_false] at *; omega)
    have hne : irExt w ≠ 0b00#2 := fun h0 => hext (by rw [hfields, hop15, h0]; rfl)
    simp [decodeExtended, hne]
  case h_5 h | h_6 h | h_12 h | h_13 h | h_14 h | h_15 h =>
    simp [irOpcode_eq_of_toNat h] at hop
  all_goals rfl

/-- The bits no field covers lie below the opcode. -/
theorem irOpcode_encode_decode (r15 w : Word) : irOpcode (encode (decode r15 w)) = irOpcode w := by
  rw [encode_decode, and_not_fieldlessBits]
  split_ifs
  · exact irOpcode_encXR ..
  · exact BitVec.extractLsb'_and.trans BitVec.and_allOnes
  · rfl

theorem toNat_irOpcode (w : Word) : (irOpcode w).toNat = w.toNat / 4096 := by
  have hw := w.isLt
  rw [irOpcode, BitVec.extractLsb'_toNat, Nat.shiftRight_eq_div_pow]
  omega

/-- Settles O6: the words of the two reserved opcodes are the words below 0x2000. -/
theorem reservedOpcodesFault : Obligations.ReservedOpcodesFault := by
  refine ⟨fun r15 w => ⟨fun hlt => ⟨irLow w, ?_⟩, fun ⟨low, hlow⟩ => ?_⟩, fun low s => ⟨rfl, rfl⟩⟩
  · have hop := toNat_irOpcode w
    have hcases : (irOpcode w).toNat = 0 ∨ (irOpcode w).toNat = 1 := by omega
    exact hcases.imp (fun h => by simp [decode, h]) fun h => by simp [decode, h]
  · have hop := irOpcode_encode_decode r15 w
    have hnat := toNat_irOpcode w
    have hcases : irOpcode w = 0#4 ∨ irOpcode w = 1#4 :=
      hlow.imp (fun h => by rw [← hop, h, encode, irOpcode_reserved])
        fun h => by rw [← hop, h, encode, irOpcode_reserved]
    rcases hcases with h | h <;> simp only [h, BitVec.toNat_ofNat] at hnat <;> omega

/-- Settles O1: sixteen fixed words under fixed values of R15. -/
theorem specWordsDecode : Obligations.SpecWordsDecode := by
  unfold Obligations.SpecWordsDecode
  decide

end Sys2Proof
end

section
/-! What an instruction does to the state, said once for all of them: it raises the fault of the table, or it answers in
one of four forms, from the state with its operands read and its memory or IO transfer made. -/

namespace Sys2Proof

/-- The instruction stores a word in memory (40_data_transfer.md R102). -/
def Instr.stores : Instr → Bool
  | .str _ _ => true
  | _ => false

/-- The instruction makes an IO event (40_data_transfer.md R101, R103). -/
def Instr.usesIo : Instr → Bool
  | .ldrIo _ _ => true
  | .strIo _ _ => true
  | _ => false

namespace Machine

/-- The state in which the count of free values is `n`. -/
def State.withDraws (s : State) (n : Nat) : State := { s with draws := n }

@[simp] theorem State.withDraws_pc (s : State) (n : Nat) : (s.withDraws n).pc = s.pc := rfl
@[simp] theorem State.withDraws_mem (s : State) (n : Nat) : (s.withDraws n).mem = s.mem := rfl
@[simp] theorem State.withDraws_ioHistory (s : State) (n : Nat) : (s.withDraws n).ioHistory = s.ioHistory := rfl
@[simp] theorem State.withDraws_draws (s : State) (n : Nat) : (s.withDraws n).draws = n := rfl
@[simp] theorem State.withDraws_platform (s : State) (n : Nat) : (s.withDraws n).platform = s.platform := rfl
@[simp] theorem State.withDraws_readReg (s : State) (n : Nat) (r : RegIdx) :
    (s.withDraws n).readReg r = s.readReg r := rfl
@[simp] theorem State.withDraws_acceptsWrite (s : State) (n : Nat) (r : RegIdx) (v : Word) :
    (s.withDraws n).acceptsWrite r v = s.acceptsWrite r v := rfl

theorem State.afterReading_eq_withDraws (s : State) (is : List RegIdx) :
    s.afterReading is = s.withDraws (s.afterReading is).draws := by
  unfold State.afterReading
  split <;> rfl

/-- Memory, the IO history and the platform stand in `u` as the instruction leaves them when it starts in `s`. -/
structure Transfers (i : Instr) (s u : State) : Prop where
  platform : u.platform = s.platform
  mem : i.stores = false → u.mem = s.mem
  memWf : Memory.wf s.mem = true → Memory.wf u.mem = true
  io : i.usesIo = false → u.ioHistory = s.ioHistory
  ioEvent : i.usesIo = true → ∃ e, u.ioHistory = s.ioHistory ++ [e]

theorem Transfers.of_eq {i : Instr} {s u t : State} (h : Transfers i s u) (hplatform : t.platform = u.platform)
    (hmem : t.mem = u.mem) (hio : t.ioHistory = u.ioHistory) : Transfers i s t := by
  obtain ⟨h1, h2, h3, h4, h5⟩ := h
  exact ⟨by rwa [hplatform], by rwa [hmem], by rwa [hmem], by rwa [hio], by rwa [hio]⟩

/-- `u` is `s` after an instruction has read its operands and made its transfer, before it writes a register or pc. -/
structure Prepared (i : Instr) (s u : State) : Prop extends Transfers i s u where
  pc : u.pc = s.pc
  regs : u.regs = s.regs

theorem Prepared.readReg {i : Instr} {s u : State} (h : Prepared i s u) (r : RegIdx) : u.readReg r = s.readReg r := by
  simp [State.readReg, h.regs]

theorem Prepared.acceptsWrite {i : Instr} {s u : State} (h : Prepared i s u) (r : RegIdx) (v : Word) :
    u.acceptsWrite r v = s.acceptsWrite r v := by
  simp [State.acceptsWrite, h.platform]

/-- Reading operands and drawing values is all the preparation an instruction without a transfer needs. -/
theorem prepared_withDraws {i : Instr} (s : State) (n : Nat) (hio : i.usesIo = false) :
    Prepared i s (s.withDraws n) :=
  ⟨⟨rfl, fun _ => rfl, id, fun _ => rfl, fun h => absurd h (by simp [hio])⟩, rfl, rfl⟩

theorem prepared_afterReading {i : Instr} (s : State) (is : List RegIdx) (hio : i.usesIo = false) :
    Prepared i s (s.afterReading is) := by
  rw [State.afterReading_eq_withDraws]
  exact prepared_withDraws s _ hio

/-- The forms in which an instruction answers, each with what the tables say of the instruction. -/
inductive Answers (i : Instr) (s : State) : Result → Prop
  /-- The fault of the table of R191. -/
  | fault (f : Fault) (hf : faultIn s i = some f) : Answers i s (.fault f)
  /-- One register and pc are written. -/
  | write (u : State) (rd : RegIdx) (v p : Word) (hu : Prepared i s u) (hf : faultIn s i = none)
      (hdest : i.destinations = [rd]) (hcmp : i.isCompare = false) (hpc : i.fallsThrough = true → p = s.pc + 1#16) :
      Answers i s (writeAndJump rd v p u)
  /-- A pair of registers is written. -/
  | pair (u : State) (rd : RegIdx) (v w : Word) (hu : Prepared i s u) (hf : faultIn s i = none)
      (hdest : i.destinations = [rd, secondReg rd]) (hcmp : i.isCompare = false) :
      Answers i s (writePairAndAdvance false rd v w u)
  /-- G and E are written. -/
  | flags (u : State) (signed : Bool) (a b : Word) (hu : Prepared i s u) (hf : faultIn s i = none)
      (hdest : i.destinations = [15#4]) (hcmp : i.isCompare = true) :
      Answers i s (compare signed a b u)
  /-- Pc alone is written. -/
  | goto (u : State) (p : Word) (hu : Prepared i s u) (hf : faultIn s i = none) (hdest : i.destinations = [])
      (hpc : i.fallsThrough = true → p = s.pc + 1#16) :
      Answers i s (.next (u.jumpTo p))

/-- What the tables say of an instruction that writes `rd`, raises no fault and is neither a jump nor a transfer. -/
structure WritesOnly (i : Instr) (s : State) (rd : RegIdx) : Prop where
  hf : faultIn s i = none := by rfl
  hdest : i.destinations = [rd] := by rfl
  hcmp : i.isCompare = false := by rfl
  hio : i.usesIo = false := by rfl

theorem writeAndAdvance_answers {i : Instr} {s : State} {rd : RegIdx} (is : List RegIdx) (v : Word)
    (h : WritesOnly i s rd) : Answers i s (writeAndAdvance rd v (s.afterReading is)) :=
  .write _ rd v _ (prepared_afterReading s is h.hio) h.hf h.hdest h.hcmp (by simp)

/-- Only the first of a pair is written where the second is suppressed (R163, R166). -/
theorem writePairAndAdvance_firstOnly (rd : RegIdx) (v w : Word) (s : State) :
    writePairAndAdvance true rd v w s = writeAndAdvance rd v s := by
  simp [writePairAndAdvance, writeAndAdvance, writeAndJump, State.writePair, State.advance, State.jumpTo]

theorem ldr_answers (rd rs1 : RegIdx) (s : State) : Answers (.ldr rd rs1) s (execLdr rd rs1 s) := by
  unfold execLdr memRead
  cases hmap : mapAdmits s.platform.memMap .load (s.operandA rs1)
  case true => exact writeAndAdvance_answers [rs1] _ { hf := by simp [faultIn, hmap] }
  case false => exact .fault _ (by simp [faultIn, hmap])

theorem prepared_ioRead (s : State) (rd rs1 : RegIdx) :
    Prepared (.ldrIo rd rs1) s (ioRead (s.afterReading [rs1]) (s.operandA rs1)) := by
  refine ⟨⟨?_, fun _ => ?_, fun hwf => ?_, (nomatch ·),
    fun _ => ⟨.read (s.operandA rs1) (ioAnswer (s.afterReading [rs1])), ?_⟩⟩, ?_, ?_⟩
  all_goals simp [*]

theorem prepared_ioWrite (s : State) (rd rs1 : RegIdx) :
    Prepared (.strIo rd rs1) s (ioWrite (s.afterReading [rd, rs1]) (s.operandA rd) (s.operandB rs1)) := by
  refine ⟨⟨?_, fun _ => ?_, fun hwf => ?_, (nomatch ·),
    fun _ => ⟨.write (s.operandA rd) (s.operandB rs1), ?_⟩⟩, ?_, ?_⟩
  all_goals simp [*]

theorem str_answers (rd rs1 : RegIdx) (s : State) : Answers (.str rd rs1) s (execStr rd rs1 s) := by
  unfold execStr memWrite
  cases hmap : mapAdmits s.platform.memMap .store (s.operandA rd)
  case false => exact .fault _ (by simp [faultIn, hmap])
  case true =>
    refine .goto _ _ ⟨⟨?_, (nomatch ·), fun hwf => ?_, fun _ => ?_, (nomatch ·)⟩, ?_, ?_⟩
      (by simp [faultIn, hmap]) rfl ?_
    all_goals simp [Memory.writeWord_wf, *]

/-- Table 1 has no entry for the conditions 110 and 111 (R84, R112). -/
theorem condition_eq_none_iff (fib : BitVec 5) (g e : Bool) :
    condition (condCode fib) g e = none ↔ ¬ fib.toNat % 8 < 6 := by
  revert fib g e; decide

theorem branch_answers {i : Instr} {s : State} (fib : BitVec 5) (rd : RegIdx) (target : Word)
    (hf : faultIn s i = branchFault fib s) (hdest : i.destinations = []) (hfall : i.fallsThrough = false)
    (hio : i.usesIo = false) : Answers i s (branch fib target (s.afterReading [rd])) := by
  have hu := prepared_afterReading (i := i) s [rd] hio
  have hnone := condition_eq_none_iff fib (s.afterReading [rd]).flagG (s.afterReading [rd]).flagE
  unfold branch
  split
  next h => exact .fault _ (by simp [hf, branchFault, hnone.1 h])
  all_goals
    next h =>
    have hlt : fib.toNat % 8 < 6 := by by_contra hge; simp [hnone.2 hge] at h
    exact .goto _ _ hu (by simp [hf, branchFault, hlt]) hdest (by simp [hfall])

theorem divide_of_ne_zero {rs2 : RegIdx} {s : State} (hb : s.operandB rs2 ≠ 0#16) (signed quotientOnly : Bool)
    (rd rs1 : RegIdx) :
    divide signed quotientOnly rd rs1 rs2 s =
      writePairAndAdvance quotientOnly rd (quotient signed (s.operandA rs1) (s.operandB rs2))
        (remainder signed (s.operandA rs1) (s.operandB rs2)) (s.afterReading [rs1, rs2]) := by
  simp [divide, hb]

theorem divide_of_zero_fault {rs2 : RegIdx} {s : State} (hb : s.operandB rs2 = 0#16)
    (hfault : s.platform.divByZero = .fault) (signed quotientOnly : Bool) (rd rs1 : RegIdx) :
    divide signed quotientOnly rd rs1 rs2 s = .fault (.divideByZero s.pc) := by
  simp [divide, hb, divideByZero, hfault, raise]

theorem divide_of_zero_anyValue {rs2 : RegIdx} {s : State} (hb : s.operandB rs2 = 0#16)
    (hany : s.platform.divByZero = .anyValue) (signed quotientOnly : Bool) (rd rs1 : RegIdx) :
    divide signed quotientOnly rd rs1 rs2 s =
      writePairAndAdvance quotientOnly rd (Config.draw (s.afterReading [rs1, rs2]).draws)
        (Config.draw ((s.afterReading [rs1, rs2]).draws + 1))
        (s.withDraws ((s.afterReading [rs1, rs2]).draws + if quotientOnly then 1 else 2)) := by
  simp [divide, hb, divideByZero, hany, State.withDraws]

/-- A divide answers as a write of its results does, whether it computes them or draws them. -/
theorem divide_answers {i : Instr} {s : State} (signed quotientOnly : Bool) (rd rs1 rs2 : RegIdx)
    (hf : faultIn s i = divideFault rs2 s) (hio : i.usesIo = false)
    (hwrite : ∀ u v w, Prepared i s u → faultIn s i = none →
      Answers i s (writePairAndAdvance quotientOnly rd v w u)) :
    Answers i s (divide signed quotientOnly rd rs1 rs2 s) := by
  by_cases hb : s.operandB rs2 = 0#16
  case neg =>
    rw [divide_of_ne_zero hb]
    exact hwrite _ _ _ (prepared_afterReading s _ hio) (by simp [hf, divideFault, hb])
  case pos =>
    cases hzero : s.platform.divByZero
    · rw [divide_of_zero_fault hb hzero]
      exact .fault _ (by simp [hf, divideFault, hb, hzero])
    · rw [divide_of_zero_anyValue hb hzero]
      exact hwrite _ _ _ (prepared_withDraws s _ hio) (by simp [hf, divideFault, hb, hzero])

/-- Every instruction answers in one of the forms: what a step can do, from which the frames and the faults follow. -/
theorem exec_answers (i : Instr) (s : State) : Answers i s (exec i s) := by
  cases i with
  | anr rd rs1 rs2 | slr rd rs1 rs2 | sar rd rs1 rs2 | adr rd rs1 rs2 | sur rd rs1 rs2 =>
    exact writeAndAdvance_answers [rs1, rs2] _ {}
  | ani rd imm | mhi rd imm | adi rd imm | sui rd imm | shi la rd imm | ntd c rd =>
    exact writeAndAdvance_answers [rd] _ {}
  | ntr c rd rs1 | anir rd rs1 imm | adir rd rs1 imm | suir rd rs1 imm =>
    exact writeAndAdvance_answers [rs1] _ {}
  | msi rd imm8 => exact writeAndAdvance_answers [] _ {}
  | ldr rd rs1 => exact ldr_answers rd rs1 s
  | ldrIo rd rs1 => exact .write _ rd _ _ (prepared_ioRead s rd rs1) rfl rfl rfl (by simp)
  | str rd rs1 => exact str_answers rd rs1 s
  | strIo rd rs1 => exact .goto _ _ (prepared_ioWrite s rd rs1) rfl rfl (by simp)
  | jmr saves rd rs1 =>
    cases saves
    · exact .goto _ _ (prepared_afterReading s [rs1] rfl) rfl rfl (nomatch ·)
    · exact .write _ rd _ _ (prepared_afterReading s [rs1] rfl) rfl rfl rfl (nomatch ·)
  | jmi rd imm6 => exact .write _ rd _ _ (prepared_withDraws s s.draws rfl) rfl rfl rfl (nomatch ·)
  | brc fib rd | brr fib rd => exact branch_answers fib rd _ rfl rfl rfl rfl
  | cmr rs1 rd | cmrs rs1 rd => exact .flags _ _ _ _ (prepared_afterReading s [rs1, rd] rfl) rfl rfl rfl
  | cmi imm5 rd | cmis imm5 rd => exact .flags _ _ _ _ (prepared_afterReading s [rd] rfl) rfl rfl rfl
  | mul rd rs1 rs2 | muls rd rs1 rs2 =>
    exact .pair _ rd _ _ (prepared_afterReading s [rs1, rs2] rfl) rfl rfl rfl
  | mull rd rs1 rs2 =>
    have h := writeAndAdvance_answers (i := .mull rd rs1 rs2) (s := s) [rs1, rs2]
      (lowHalf (product false (s.operandA rs1) (s.operandB rs2))) {}
    rwa [← writePairAndAdvance_firstOnly] at h
  | div rd rs1 rs2 | divs rd rs1 rs2 =>
    exact divide_answers _ false rd rs1 rs2 rfl rfl fun u v w hu hf => .pair u rd v w hu hf rfl rfl
  | divq rd rs1 rs2 =>
    refine divide_answers _ true rd rs1 rs2 rfl rfl fun u v w hu hf => ?_
    rw [writePairAndAdvance_firstOnly]
    exact .write u rd v _ hu hf rfl rfl (by simp [hu.pc])
  | msiShadow rd imm8 | reserved0 low | reserved1 low => exact .fault _ rfl

end Machine
end Sys2Proof
end

section
/-! What a completed instruction leaves, and when an instruction does not complete: one inversion lemma each, from the
forms an instruction answers in. -/

namespace Sys2Proof.Machine

/-- What holds of `t` when the instruction takes `s` to it. -/
structure Completed (i : Instr) (s t : State) : Prop extends Transfers i s t where
  regs : ∀ r, r ∉ i.destinations → t.readReg r = s.readReg r
  pc : i.fallsThrough = true → t.pc = s.pc + 1#16
  written : s.platform.r15Undoc = .volatile → 15#4 ∈ i.destinations → i.isCompare = false →
    t.r15.extractLsb' 8 2 = 0#2
  compared : i.isCompare = true → t.r15.extractLsb' 8 2 = s.r15.extractLsb' 8 2

/-- Where R15 is volatile, a write of it is accepted exactly where it puts 0 in bits 9:8. -/
theorem State.acceptsWrite_r15_iff {s : State} (hvol : s.platform.r15Undoc = .volatile) (v : Word) :
    s.acceptsWrite 15#4 v = true ↔ v.extractLsb' 8 2 = 0#2 := by
  simp [State.acceptsWrite, hvol]

/-- The flags are not among bits 9:8 of R15. -/
theorem withFlags_extractLsb'_eight (r15 : Word) (g e : Bool) :
    (withFlags r15 g e).extractLsb' 8 2 = r15.extractLsb' 8 2 := by
  apply BitVec.eq_of_getLsbD_eq; intro b hb
  simp only [BitVec.getLsbD_extractLsb', withFlags_getLsbD]
  have h5 : ¬ 8 + b = 5 := by omega
  have h4 : ¬ 8 + b = 4 := by omega
  simp [h5, h4]

section
variable {i : Instr} {s u : State} (hu : Prepared i s u)
include hu

theorem Prepared.completed_write {rd : RegIdx} {v p : Word} (hdest : i.destinations = [rd])
    (hcmp : i.isCompare = false) (hpc : i.fallsThrough = true → p = s.pc + 1#16) (hacc : u.acceptsWrite rd v = true) :
    Completed i s ((u.writeReg rd v).jumpTo p) := by
  refine ⟨hu.of_eq (by simp) (by simp) (by simp), fun r hr => ?regs, hpc, fun hvol hmem _ => ?written, by simp [hcmp]⟩
  case regs => simp [State.readReg_writeReg, hu.readReg, show r ≠ rd by simpa [hdest] using hr]
  case written =>
    obtain rfl : 15#4 = rd := by simpa [hdest] using hmem
    rw [hu.acceptsWrite, State.acceptsWrite_r15_iff hvol] at hacc
    simpa [State.r15, State.readReg_writeReg] using hacc

theorem Prepared.completed_pair {rd : RegIdx} {v w : Word} (hdest : i.destinations = [rd, secondReg rd])
    (hcmp : i.isCompare = false) (hv : u.acceptsWrite rd v = true) (hw : u.acceptsWrite (secondReg rd) w = true) :
    Completed i s (u.writePair false rd v w).advance := by
  refine ⟨hu.of_eq (by simp) (by simp) (by simp), fun r hr => ?regs, by simp [hu.pc], fun hvol hmem _ => ?written,
    by simp [hcmp]⟩
  case regs =>
    obtain ⟨hrd, hsecond⟩ : r ≠ rd ∧ r ≠ secondReg rd := by simpa [hdest] using hr
    by_cases h0 : r = 0#4
    · simp [h0]
    · simp [State.readReg_writePair, hu.readReg, h0, hrd, hsecond]
  case written =>
    rw [hu.acceptsWrite] at hv hw
    by_cases hfirst : 15#4 = rd
    · rw [← hfirst, State.acceptsWrite_r15_iff hvol] at hv
      simpa [State.r15, State.readReg_writePair, ← hfirst] using hv
    · have hsecond : 15#4 = secondReg rd := by simpa [hdest, hfirst] using hmem
      rw [← hsecond, State.acceptsWrite_r15_iff hvol] at hw
      simpa [State.r15, State.readReg_writePair, hfirst, ← hsecond] using hw

theorem Prepared.completed_flags (g e : Bool) (hdest : i.destinations = [15#4]) (hcmp : i.isCompare = true) :
    Completed i s (u.writeReg 15#4 (withFlags u.r15 g e)).advance := by
  refine ⟨hu.of_eq (by simp) (by simp) (by simp), fun r hr => ?regs, by simp [hu.pc], by simp [hcmp],
    fun _ => ?compared⟩
  case regs => simp [State.readReg_writeReg, hu.readReg, show r ≠ 15#4 by simpa [hdest] using hr]
  case compared => simp [State.r15, State.readReg_writeReg, withFlags_extractLsb'_eight, hu.readReg]

theorem Prepared.completed_goto {p : Word} (hdest : i.destinations = [])
    (hpc : i.fallsThrough = true → p = s.pc + 1#16) : Completed i s (u.jumpTo p) :=
  ⟨hu.of_eq rfl rfl rfl, fun r _ => hu.readReg r, hpc, by simp [hdest], fun _ => congrArg _ (hu.readReg 15#4)⟩

end

theorem exec_next {i : Instr} {s t : State} (h : exec i s = .next t) : Completed i s t := by
  have hform := exec_answers i s
  generalize exec i s = r at h hform
  cases hform with
  | fault => cases h
  | write u rd v p hu hf hdest hcmp hpc =>
    obtain ⟨hacc, rfl⟩ := writeAndJump_next h
    exact hu.completed_write hdest hcmp hpc hacc
  | pair u rd v w hu hf hdest hcmp =>
    obtain ⟨hv, hw, rfl⟩ := writePairAndAdvance_next h
    exact hu.completed_pair hdest hcmp hv (hw.resolve_left Bool.false_ne_true)
  | flags u signed a b hu hf hdest hcmp =>
    obtain rfl := compare_next h
    exact hu.completed_flags _ _ hdest hcmp
  | goto u p hu hf hdest hpc =>
    cases h
    exact hu.completed_goto hdest hpc

/-- The fault of a write that a volatile R15 refuses, and what instructions can raise it (R34). -/
def RefusesWrite (i : Instr) (s : State) : Prop :=
  exec i s = .fault (.undescribedShadowWrite s.pc) ∧ s.platform.r15Undoc = .volatile ∧ 15#4 ∈ i.destinations ∧
    i.isCompare = false

/-- A write is refused only of a volatile R15. -/
theorem State.eq_r15_of_not_acceptsWrite {s : State} {r : RegIdx} {v : Word} (h : s.acceptsWrite r v = false) :
    r = 15#4 ∧ s.platform.r15Undoc = .volatile := by
  have hrefused : (r = 15#4 ∧ s.platform.r15Undoc = .volatile) ∧ v.extractLsb' 8 2 ≠ 0#2 := by
    simpa [State.acceptsWrite] using h
  exact hrefused.1

theorem exec_of_fault {i : Instr} {s : State} {f : Fault} (h : faultIn s i = some f) : exec i s = .fault f := by
  have hform := exec_answers i s
  generalize exec i s = r at hform
  cases hform <;> simp_all

theorem exec_of_noFault {i : Instr} {s : State} (h : faultIn s i = none) :
    (∃ t, exec i s = .next t) ∨ RefusesWrite i s := by
  unfold RefusesWrite
  have hform := exec_answers i s
  generalize exec i s = r at hform
  cases hform with
  | fault f hf => simp [h] at hf
  | flags | goto => exact .inl ⟨_, rfl⟩
  | write u rd v p hu hf hdest hcmp hpc =>
    cases hacc : u.acceptsWrite rd v
    case true => exact .inl ⟨_, writeAndJump_of_accepts hacc⟩
    case false =>
      obtain ⟨rfl, hvol⟩ := State.eq_r15_of_not_acceptsWrite hacc
      exact .inr ⟨by simp [writeAndJump, hacc, raise, hu.pc], by rwa [← hu.platform], by simp [hdest], hcmp⟩
  | pair u rd v w hu hf hdest hcmp =>
    cases hacc : u.acceptsWrite rd v && u.acceptsWrite (secondReg rd) w
    case true =>
      obtain ⟨hv, hw⟩ := Bool.and_eq_true_iff.1 hacc
      exact .inl ⟨_, writePairAndAdvance_of_accepts hv (.inr hw)⟩
    case false =>
      have hfault : writePairAndAdvance false rd v w u = .fault (.undescribedShadowWrite s.pc) := by
        simp [writePairAndAdvance, hacc, raise, hu.pc]
      rcases Bool.and_eq_false_iff.1 hacc with hv | hw
      · obtain ⟨hrd, hvol⟩ := State.eq_r15_of_not_acceptsWrite hv
        exact .inr ⟨hfault, by rwa [← hu.platform], by simp [hdest, hrd], hcmp⟩
      · obtain ⟨hrd, hvol⟩ := State.eq_r15_of_not_acceptsWrite hw
        exact .inr ⟨hfault, by rwa [← hu.platform], by simp [hdest, hrd], hcmp⟩

end Sys2Proof.Machine
end

section
/-! The statements about the step and about all instructions alike (10_state.md, 60_exceptions.md). -/

namespace Sys2Proof.Machine

theorem step_of_notAdmitted {s : State} (hmap : mapAdmits s.platform.memMap .fetch s.pc = false) :
    step s = .fault (.unmappedAccess .fetch s.pc s.pc) := by
  simp [step, fetchWord, hmap, raise]

theorem step_of_forbidden {s : State} (hmap : mapAdmits s.platform.memMap .fetch s.pc = true)
    (hacc : acceptsWord s (Memory.readWord s.mem s.pc) = false) : step s = .fault (.reservedOpcode s.pc) := by
  simp [step, fetchWord, hmap, hacc, raise]

theorem step_of_accepted {s : State} (hmap : mapAdmits s.platform.memMap .fetch s.pc = true)
    (hacc : acceptsWord s (Memory.readWord s.mem s.pc) = true) :
    step s = exec (decode s.r15 (Memory.readWord s.mem s.pc)) s := by
  simp [step, fetchWord, hmap, hacc]

/-- Settles O7: the three branches of a step. -/
theorem stepRunsTheDecodedInstruction : Obligations.StepRunsTheDecodedInstruction := fun _ =>
  ⟨fun hmap => ⟨step_of_accepted hmap, step_of_forbidden hmap⟩, step_of_notAdmitted⟩

/-- A step that answers a next state ran an instruction. -/
theorem step_next {s t : State} (h : step s = .next t) : ∃ i, exec i s = .next t := by
  cases hmap : mapAdmits s.platform.memMap .fetch s.pc
  case false => simp [step_of_notAdmitted hmap] at h
  case true =>
    cases hacc : acceptsWord s (Memory.readWord s.mem s.pc)
    case false => simp [step_of_forbidden hmap hacc] at h
    case true => exact ⟨_, by rwa [step_of_accepted hmap hacc] at h⟩

theorem step_of_fault {s : State} {f : Fault} (h : s.faultNext = some f) : step s = .fault f := by
  unfold State.faultNext at h
  split_ifs at h with hmap hacc
  · rw [step_of_accepted hmap hacc, exec_of_fault h]
  · rw [step_of_forbidden hmap (by simpa using hacc), ← Option.some.inj h]
  · rw [step_of_notAdmitted (by simpa using hmap), ← Option.some.inj h]

theorem step_of_noFault {s : State} (h : s.faultNext = none) :
    step s = exec (decode s.r15 (Memory.readWord s.mem s.pc)) s ∧
      faultIn s (decode s.r15 (Memory.readWord s.mem s.pc)) = none := by
  unfold State.faultNext at h
  split_ifs at h with hmap hacc
  exact ⟨step_of_accepted hmap hacc, h⟩

/-- The table of R191 holds no refused write. -/
theorem faultIn_ne_refusedWrite (s : State) (i : Instr) (pc : Word) :
    faultIn s i ≠ some (.undescribedShadowWrite pc) := by
  cases i with
  | ldr | str => simp only [faultIn]; split <;> simp
  | brc | brr => simp only [faultIn, branchFault]; split <;> simp
  | div | divs | divq => simp only [faultIn, divideFault]; split <;> simp
  | _ => simp [faultIn]

theorem faultNext_ne_refusedWrite (s : State) (pc : Word) : s.faultNext ≠ some (.undescribedShadowWrite pc) := by
  unfold State.faultNext
  split_ifs
  · exact faultIn_ne_refusedWrite s _ pc
  · simp
  · simp

/-- Settles O9: a step raises the fault the table names, or completes, or has a write refused. -/
theorem stepFaultsExactlyWhereNamed : Obligations.StepFaultsExactlyWhereNamed := by
  intro s
  cases hnext : s.faultNext with
  | some f =>
    have hstep := step_of_fault hnext
    have hne : f ≠ .undescribedShadowWrite s.pc := fun h => faultNext_ne_refusedWrite s s.pc (h ▸ hnext)
    simp [hstep, hne]
  | none =>
    obtain ⟨hstep, hnone⟩ := step_of_noFault hnext
    rw [hstep]
    rcases exec_of_noFault hnone with ⟨t, hexec⟩ | ⟨hexec, hvol, hdest, hcmp⟩
    · simp [hexec]
    · simp [hexec, hvol, hdest, hcmp, eq_comm]

/-- Settles O47: an instruction stores words, and nothing else, into memory. -/
theorem stepKeepsMemoryCanonical : Obligations.StepKeepsMemoryCanonical := fun s t hwf hstep => by
  obtain ⟨i, hexec⟩ := step_next hstep
  exact (exec_next hexec).memWf hwf

/-- Settles O57: a compare keeps R15[9:8], a whole write of R15 leaves them 0, and nothing else writes R15. -/
theorem stepKeepsUndescribedShadowsClear : Obligations.StepKeepsUndescribedShadowsClear := by
  intro s t hvol hclear hstep
  obtain ⟨i, hexec⟩ := step_next hstep
  have hdone := exec_next hexec
  refine ⟨hdone.platform ▸ hvol, ?_⟩
  cases hcmp : i.isCompare
  case true => rw [hdone.compared hcmp, hclear]
  case false =>
    by_cases hdest : 15#4 ∈ i.destinations
    · exact hdone.written hvol hdest hcmp
    · exact (congrArg _ (hdone.regs 15#4 hdest)).trans hclear

/-- Settles O48: the transfer an instruction makes is all it does to memory, the IO history and the platform. -/
theorem onlyTransfersReachMemoryAndIo : Obligations.OnlyTransfersReachMemoryAndIo := by
  intro i s t hexec
  have hdone := exec_next hexec
  refine ⟨hdone.platform, fun hstr k => ?_, fun hread hwrite => hdone.io ?_, ?_⟩
  · rw [hdone.mem]
    cases i with
    | str rd rs1 => exact absurd rfl (hstr rd rs1)
    | _ => rfl
  · cases i with
    | ldrIo rd rs1 => exact absurd rfl (hread rd rs1)
    | strIo rd rs1 => exact absurd rfl (hwrite rd rs1)
    | _ => rfl
  · rintro ⟨rd, rs1, rfl | rfl⟩ <;> exact hdone.ioEvent rfl

/-- Settles O49: the registers of a completed instruction. -/
theorem onlyDestinationsChange : Obligations.OnlyDestinationsChange := fun _ _ _ hexec => (exec_next hexec).regs

/-- Settles O50: the sum of words is the sum of the integers mod 2^16. -/
theorem pcAdvancesByOne : Obligations.PcAdvancesByOne := by
  intro i s t hfall hexec
  rw [(exec_next hexec).pc hfall]
  apply BitVec.eq_of_toNat_eq
  simp

end Sys2Proof.Machine
end

section
/-! What an instruction does depends on the registers it reads alone (10_state.md R26, R40): each shared operation, in
two states that differ in registers only. -/

namespace Sys2Proof.Machine

/-- The state with other registers. -/
def State.withRegs (s : State) (regs : Vector Word 15) : State := { s with regs := regs }

@[simp] theorem State.withRegs_pc (s : State) (regs : Vector Word 15) : (s.withRegs regs).pc = s.pc := rfl
@[simp] theorem State.withRegs_mem (s : State) (regs : Vector Word 15) : (s.withRegs regs).mem = s.mem := rfl
@[simp] theorem State.withRegs_ioHistory (s : State) (regs : Vector Word 15) :
    (s.withRegs regs).ioHistory = s.ioHistory := rfl
@[simp] theorem State.withRegs_draws (s : State) (regs : Vector Word 15) : (s.withRegs regs).draws = s.draws := rfl
@[simp] theorem State.withRegs_platform (s : State) (regs : Vector Word 15) :
    (s.withRegs regs).platform = s.platform := rfl
@[simp] theorem State.withRegs_acceptsWrite (s : State) (regs : Vector Word 15) (r : RegIdx) (v : Word) :
    (s.withRegs regs).acceptsWrite r v = s.acceptsWrite r v := rfl
@[simp] theorem State.withRegs_ioAnswer (s : State) (regs : Vector Word 15) :
    ioAnswer (s.withRegs regs) = ioAnswer s := rfl

@[simp] theorem memRead_withRegs (s : State) (regs : Vector Word 15) (a : Word) :
    memRead (s.withRegs regs) a = memRead s a := rfl
@[simp] theorem memWrite_withRegs (s : State) (regs : Vector Word 15) (a v : Word) :
    memWrite (s.withRegs regs) a v = (memWrite s a v).map (·.withRegs regs) := by
  unfold memWrite
  split <;> simp_all
  rfl

@[simp] theorem State.withRegs_afterReading (s : State) (regs : Vector Word 15) (is : List RegIdx) :
    (s.withRegs regs).afterReading is = (s.afterReading is).withRegs regs := by
  unfold State.afterReading
  rw [apply_ite (State.withRegs · regs)]
  rfl

/-- Two states agree on all but the registers that are not in `ds`. -/
def AgreeOn (ds : List RegIdx) (t t' : State) : Prop :=
  t'.pc = t.pc ∧ t'.mem = t.mem ∧ t'.ioHistory = t.ioHistory ∧ t'.draws = t.draws ∧ t'.platform = t.platform ∧
    ∀ r ∈ ds, t'.readReg r = t.readReg r

/-- The answer `r'` is `r` but for the registers that are not in `ds`. -/
def SameOutcome (ds : List RegIdx) (r r' : Result) : Prop :=
  (∀ f, r = .fault f → r' = .fault f) ∧ ∀ t, r = .next t → ∃ t', r' = .next t' ∧ AgreeOn ds t t'

theorem sameOutcome_of_fault (ds : List RegIdx) (f : Fault) : SameOutcome ds (.fault f) (.fault f) :=
  ⟨fun _ h => h, nofun⟩

theorem sameOutcome_of_next {ds : List RegIdx} {t t' : State} (h : AgreeOn ds t t') :
    SameOutcome ds (.next t) (.next t') :=
  ⟨nofun, fun _ e => ⟨t', rfl, by cases e; exact h⟩⟩

theorem readReg_writeReg_withRegs (u : State) (regs : Vector Word 15) (r : RegIdx) (v : Word) :
    ((u.withRegs regs).writeReg r v).readReg r = (u.writeReg r v).readReg r := by
  by_cases h0 : r = 0#4
  · simp [h0]
  · simp [State.readReg_writeReg, h0]

theorem writeAndJump_sameOutcome (rd : RegIdx) (v p : Word) (u : State) (regs : Vector Word 15) :
    SameOutcome [rd] (writeAndJump rd v p u) (writeAndJump rd v p (u.withRegs regs)) := by
  unfold writeAndJump
  rw [State.withRegs_acceptsWrite]
  split
  · refine sameOutcome_of_next ⟨rfl, ?_, ?_, ?_, ?_, ?_⟩ <;> simp [readReg_writeReg_withRegs]
  · exact sameOutcome_of_fault ..

theorem writePairAndAdvance_sameOutcome (firstOnly : Bool) (rd : RegIdx) (v w : Word) (u : State)
    (regs : Vector Word 15) :
    SameOutcome (if firstOnly then [rd] else [rd, secondReg rd]) (writePairAndAdvance firstOnly rd v w u)
      (writePairAndAdvance firstOnly rd v w (u.withRegs regs)) := by
  cases firstOnly
  case true =>
    rw [writePairAndAdvance_firstOnly, writePairAndAdvance_firstOnly]
    exact writeAndJump_sameOutcome ..
  case false =>
    change SameOutcome [rd, secondReg rd] _ _
    unfold writePairAndAdvance
    rw [State.withRegs_acceptsWrite, State.withRegs_acceptsWrite]
    split
    · refine sameOutcome_of_next ⟨?_, ?_, ?_, ?_, ?_, ?_⟩ <;> simp [State.readReg_writePair, secondReg_ne]
    · exact sameOutcome_of_fault ..

theorem compare_sameOutcome (signed : Bool) (a b : Word) {u : State} {regs : Vector Word 15}
    (h15 : (u.withRegs regs).r15 = u.r15) :
    SameOutcome [15#4] (compare signed a b u) (compare signed a b (u.withRegs regs)) := by
  unfold compare
  rw [h15]
  refine sameOutcome_of_next ⟨?_, ?_, ?_, ?_, ?_, ?_⟩ <;> simp [readReg_writeReg_withRegs]

theorem branch_sameOutcome (fib : BitVec 5) (target : Word) {u : State} {regs : Vector Word 15}
    (h15 : (u.withRegs regs).r15 = u.r15) :
    SameOutcome [] (branch fib target u) (branch fib target (u.withRegs regs)) := by
  simp only [branch, State.flagG, State.flagE, h15]
  split
  · exact sameOutcome_of_fault ..
  all_goals exact sameOutcome_of_next ⟨rfl, rfl, rfl, rfl, rfl, nofun⟩

/-- An operand depends on its register alone. -/
theorem operand_withRegs {s : State} {regs : Vector Word 15} (slot : Nat) {r : RegIdx}
    (h : (s.withRegs regs).readReg r = s.readReg r) : (s.withRegs regs).operand slot r = s.operand slot r := by
  unfold State.operand
  by_cases hr : r = 15#4
  · subst hr
    simp [State.r15, h]
  · simp [hr, h]

section
variable {s : State} {regs : Vector Word 15}

theorem unary_sameOutcome (f : Word → Word) (rd rs : RegIdx)
    (h : ∀ r ∈ [rs], (s.withRegs regs).readReg r = s.readReg r) :
    SameOutcome [rd] (unary f rd rs s) (unary f rd rs (s.withRegs regs)) := by
  have hA := operand_withRegs 0 (h rs (by simp))
  simp only [unary, State.operandA, hA, State.withRegs_afterReading]
  exact writeAndJump_sameOutcome ..

theorem binary_sameOutcome (f : Word → Word → Word) (rd rs1 rs2 : RegIdx)
    (h : ∀ r ∈ [rs1, rs2], (s.withRegs regs).readReg r = s.readReg r) :
    SameOutcome [rd] (binary f rd rs1 rs2 s) (binary f rd rs1 rs2 (s.withRegs regs)) := by
  have hA := operand_withRegs 0 (h rs1 (by simp))
  have hB := operand_withRegs 1 (h rs2 (by simp))
  simp only [binary, State.operandA, State.operandB, hA, hB, State.withRegs_afterReading]
  exact writeAndJump_sameOutcome ..

theorem shiftRegister_sameOutcome (arith : Bool) (rd rs1 rs2 : RegIdx)
    (h : ∀ r ∈ [rs1, rs2], (s.withRegs regs).readReg r = s.readReg r) :
    SameOutcome [rd] (shiftRegister arith rd rs1 rs2 s) (shiftRegister arith rd rs1 rs2 (s.withRegs regs)) := by
  simp only [shiftRegister, State.withRegs_platform]
  exact binary_sameOutcome _ rd rs1 rs2 h

theorem multiply_sameOutcome (signed lowOnly : Bool) (rd rs1 rs2 : RegIdx)
    (h : ∀ r ∈ [rs1, rs2], (s.withRegs regs).readReg r = s.readReg r) :
    SameOutcome (if lowOnly then [rd] else [rd, secondReg rd]) (multiply signed lowOnly rd rs1 rs2 s)
      (multiply signed lowOnly rd rs1 rs2 (s.withRegs regs)) := by
  have hA := operand_withRegs 0 (h rs1 (by simp))
  have hB := operand_withRegs 1 (h rs2 (by simp))
  simp only [multiply, State.operandA, State.operandB, hA, hB, State.withRegs_afterReading]
  exact writePairAndAdvance_sameOutcome ..

theorem divide_sameOutcome (signed quotientOnly : Bool) (rd rs1 rs2 : RegIdx)
    (h : ∀ r ∈ [rs1, rs2], (s.withRegs regs).readReg r = s.readReg r) :
    SameOutcome (if quotientOnly then [rd] else [rd, secondReg rd]) (divide signed quotientOnly rd rs1 rs2 s)
      (divide signed quotientOnly rd rs1 rs2 (s.withRegs regs)) := by
  have hA := operand_withRegs 0 (h rs1 (by simp))
  have hB := operand_withRegs 1 (h rs2 (by simp))
  simp only [divide, State.operandA, State.operandB, hA, hB, State.withRegs_afterReading]
  by_cases hb : s.operand 1 rs2 = 0#16
  case neg =>
    simp only [hb, if_false]
    exact writePairAndAdvance_sameOutcome ..
  case pos =>
    simp only [hb, if_true, divideByZero, State.withRegs_platform]
    cases (s.afterReading [rs1, rs2]).platform.divByZero
    · exact sameOutcome_of_fault ..
    · exact writePairAndAdvance_sameOutcome ..

/-- R15 is read for flags and shadow bits as it is. -/
theorem r15_afterReading_withRegs (is : List RegIdx) (h : (s.withRegs regs).readReg 15#4 = s.readReg 15#4) :
    ((s.afterReading is).withRegs regs).r15 = (s.afterReading is).r15 := by
  rw [← State.withRegs_afterReading, State.afterReading_r15, State.afterReading_r15]
  exact h

theorem compareRegisters_sameOutcome (signed : Bool) (rs1 rd : RegIdx)
    (h : ∀ r ∈ [rs1, rd, 15#4], (s.withRegs regs).readReg r = s.readReg r) :
    SameOutcome [15#4] (compare signed (s.operandA rs1) (s.operandB rd) (s.afterReading [rs1, rd]))
      (compare signed ((s.withRegs regs).operandA rs1) ((s.withRegs regs).operandB rd)
        ((s.withRegs regs).afterReading [rs1, rd])) := by
  have hA := operand_withRegs 0 (h rs1 (by simp))
  have hB := operand_withRegs 1 (h rd (by simp))
  simp only [State.operandA, State.operandB, hA, hB, State.withRegs_afterReading]
  exact compare_sameOutcome signed _ _ (r15_afterReading_withRegs _ (h 15#4 (by simp)))

theorem compareImmediate_sameOutcome (signed : Bool) (a : Word) (rd : RegIdx)
    (h : ∀ r ∈ [rd, 15#4], (s.withRegs regs).readReg r = s.readReg r) :
    SameOutcome [15#4] (compare signed a (s.operandA rd) (s.afterReading [rd]))
      (compare signed a ((s.withRegs regs).operandA rd) ((s.withRegs regs).afterReading [rd])) := by
  have hA := operand_withRegs 0 (h rd (by simp))
  simp only [State.operandA, hA, State.withRegs_afterReading]
  exact compare_sameOutcome signed _ _ (r15_afterReading_withRegs _ (h 15#4 (by simp)))

theorem branchTo_sameOutcome (fib : BitVec 5) (target : Word → Word) (rd : RegIdx)
    (h : ∀ r ∈ [rd, 15#4], (s.withRegs regs).readReg r = s.readReg r) :
    SameOutcome [] (branch fib (target (s.operandA rd)) (s.afterReading [rd]))
      (branch fib (target ((s.withRegs regs).operandA rd)) ((s.withRegs regs).afterReading [rd])) := by
  have hA := operand_withRegs 0 (h rd (by simp))
  simp only [State.operandA, hA, State.withRegs_afterReading]
  exact branch_sameOutcome fib _ (r15_afterReading_withRegs _ (h 15#4 (by simp)))

theorem ldr_sameOutcome (rd rs1 : RegIdx) (h : ∀ r ∈ [rs1], (s.withRegs regs).readReg r = s.readReg r) :
    SameOutcome [rd] (execLdr rd rs1 s) (execLdr rd rs1 (s.withRegs regs)) := by
  have hA := operand_withRegs 0 (h rs1 (by simp))
  simp only [execLdr, State.operandA, hA, memRead_withRegs, State.withRegs_afterReading]
  cases memRead s (s.operand 0 rs1)
  · exact sameOutcome_of_fault ..
  · exact writeAndJump_sameOutcome ..

theorem ldrIo_sameOutcome (rd rs1 : RegIdx) (h : ∀ r ∈ [rs1], (s.withRegs regs).readReg r = s.readReg r) :
    SameOutcome [rd] (execLdrIo rd rs1 s) (execLdrIo rd rs1 (s.withRegs regs)) := by
  have hA := operand_withRegs 0 (h rs1 (by simp))
  simp only [execLdrIo, State.operandA, hA, State.withRegs_afterReading]
  exact writeAndJump_sameOutcome _ _ _ (ioRead (s.afterReading [rs1]) (s.operand 0 rs1)) regs

theorem str_sameOutcome (rd rs1 : RegIdx) (h : ∀ r ∈ [rd, rs1], (s.withRegs regs).readReg r = s.readReg r) :
    SameOutcome [] (execStr rd rs1 s) (execStr rd rs1 (s.withRegs regs)) := by
  have hA := operand_withRegs 0 (h rd (by simp))
  have hB := operand_withRegs 1 (h rs1 (by simp))
  simp only [execStr, State.operandA, State.operandB, hA, hB, memWrite_withRegs]
  cases memWrite s (s.operand 0 rd) (s.operand 1 rs1)
  · exact sameOutcome_of_fault ..
  · refine sameOutcome_of_next ⟨?_, ?_, ?_, ?_, ?_, nofun⟩ <;> simp

theorem strIo_sameOutcome (rd rs1 : RegIdx) (h : ∀ r ∈ [rd, rs1], (s.withRegs regs).readReg r = s.readReg r) :
    SameOutcome [] (execStrIo rd rs1 s) (execStrIo rd rs1 (s.withRegs regs)) := by
  have hA := operand_withRegs 0 (h rd (by simp))
  have hB := operand_withRegs 1 (h rs1 (by simp))
  simp only [execStrIo, State.operandA, State.operandB, hA, hB, State.withRegs_afterReading]
  exact sameOutcome_of_next ⟨rfl, rfl, rfl, rfl, rfl, nofun⟩

theorem jmr_sameOutcome (saves : Bool) (rd rs1 : RegIdx)
    (h : ∀ r ∈ [rs1], (s.withRegs regs).readReg r = s.readReg r) :
    SameOutcome (if saves then [rd] else []) (execJmr saves rd rs1 s) (execJmr saves rd rs1 (s.withRegs regs)) := by
  have hA := operand_withRegs 0 (h rs1 (by simp))
  simp only [execJmr, State.operandA, hA, State.withRegs_pc, State.withRegs_afterReading]
  cases saves
  · exact sameOutcome_of_next ⟨rfl, rfl, rfl, rfl, rfl, nofun⟩
  · exact writeAndJump_sameOutcome ..

end

theorem exec_sameOutcome (i : Instr) {s : State} {regs : Vector Word 15}
    (h : ∀ r ∈ i.sources, (s.withRegs regs).readReg r = s.readReg r) :
    SameOutcome i.destinations (exec i s) (exec i (s.withRegs regs)) := by
  cases i with
  | ani rd imm | mhi rd imm | adi rd imm | sui rd imm | shi la rd imm | ntd c rd =>
    simp only [exec]
    exact unary_sameOutcome _ rd rd h
  | ntr c rd rs1 | anir rd rs1 imm | adir rd rs1 imm | suir rd rs1 imm =>
    simp only [exec]
    exact unary_sameOutcome _ rd rs1 h
  | slr rd rs1 rs2 | sar rd rs1 rs2 => exact shiftRegister_sameOutcome _ rd rs1 rs2 h
  | anr rd rs1 rs2 | adr rd rs1 rs2 | sur rd rs1 rs2 =>
    simp only [exec]
    exact binary_sameOutcome _ rd rs1 rs2 h
  | msi rd imm | jmi rd imm => exact writeAndJump_sameOutcome ..
  | jmr saves rd rs1 => exact jmr_sameOutcome saves rd rs1 h
  | ldr rd rs1 => exact ldr_sameOutcome rd rs1 h
  | ldrIo rd rs1 => exact ldrIo_sameOutcome rd rs1 h
  | str rd rs1 => exact str_sameOutcome rd rs1 h
  | strIo rd rs1 => exact strIo_sameOutcome rd rs1 h
  | mul rd rs1 rs2 | muls rd rs1 rs2 | mull rd rs1 rs2 => exact multiply_sameOutcome _ _ rd rs1 rs2 h
  | div rd rs1 rs2 | divs rd rs1 rs2 => exact divide_sameOutcome _ _ rd rs1 rs2 h
  | divq rd rs1 rs2 =>
    obtain ⟨h1, h2, h15⟩ : _ ∧ _ ∧ (s.withRegs regs).r15 = s.r15 := by
      simpa [Instr.sources, State.r15] using h
    simp only [exec, execDivq, h15]
    exact divide_sameOutcome _ true rd rs1 rs2 (by simp [h1, h2])
  | cmr rs1 rd | cmrs rs1 rd => exact compareRegisters_sameOutcome _ rs1 rd h
  | cmi imm5 rd | cmis imm5 rd => exact compareImmediate_sameOutcome _ _ rd h
  | brc fib rd => exact branchTo_sameOutcome fib id rd h
  | brr fib rd => exact branchTo_sameOutcome fib (s.pc + ·) rd h
  | msiShadow | reserved0 | reserved1 => exact sameOutcome_of_fault ..

/-- Settles O51: two states that agree on all but the registers are one state with two lists of registers. -/
theorem effectDependsOnlyOnSources : Obligations.EffectDependsOnlyOnSources := by
  intro i s s' hpc hmem hio hdraws hplatform hsources
  have hs' : s' = s.withRegs s'.regs := by rw [State.withRegs, ← hpc, ← hmem, ← hio, ← hdraws, ← hplatform]
  rw [hs'] at hsources ⊢
  exact exec_sameOutcome i hsources

end Sys2Proof.Machine
end

section
/-! What an operand read from R15 is, and which writes of R15 are refused (10_state.md R34). -/

namespace Sys2Proof.Machine

theorem State.operand_r15_getLsbD {s : State} (hvol : s.platform.r15Undoc = .volatile) (slot b : Nat) :
    (s.operand slot 15#4).getLsbD b =
      if 10 ≤ b ∨ b = 5 ∨ b = 4 then s.r15.getLsbD b else (Config.undescribedR15 s.draws slot).getLsbD b := by
  by_cases hb : b < 16
  · simp only [State.operand, hvol, and_self, if_true, BitVec.getLsbD_or, BitVec.getLsbD_and, BitVec.getLsbD_not,
      undescribedBits]
    interval_cases b <;> simp
  · have hge : 16 ≤ b := by omega
    simp only [BitVec.getLsbD_of_ge _ _ hge, ite_self]

/-- Settles O54: for R15 bit by bit, for the other registers and a storage R15 the lemmas on operands. -/
theorem operandsAreRegisterContents : Obligations.OperandsAreRegisterContents := by
  refine fun s i => ⟨?contents, fun hvol b => ⟨?first, ?second⟩, fun is => ?draws⟩
  case contents =>
    rintro (hne | hstorage)
    · exact ⟨s.operand_of_ne 0 hne, s.operand_of_ne 1 hne⟩
    · exact ⟨State.operand_of_storage hstorage 0 i, State.operand_of_storage hstorage 1 i⟩
  case first => exact State.operand_r15_getLsbD hvol 0 b
  case second => exact State.operand_r15_getLsbD hvol 1 b
  case draws =>
    unfold State.afterReading
    split <;> rfl

/-- A write of a volatile R15 is refused exactly where it puts a 1 in bits 9:8. -/
theorem writeAndJump_refuses_iff {s u : State} (hvol : u.platform.r15Undoc = .volatile) (hpc : u.pc = s.pc)
    (v p : Word) :
    writeAndJump 15#4 v p u = .fault (.undescribedShadowWrite s.pc) ↔ v.extractLsb' 8 2 ≠ 0#2 := by
  rw [Ne, ← State.acceptsWrite_r15_iff hvol, writeAndJump]
  split <;> simp [*, raise]

/-- Of a pair with R15 first, the second is R0. -/
theorem writePairAndAdvance_refusesFirst_iff {s u : State} (hvol : u.platform.r15Undoc = .volatile) (hpc : u.pc = s.pc)
    (firstOnly : Bool) (v w : Word) :
    writePairAndAdvance firstOnly 15#4 v w u = .fault (.undescribedShadowWrite s.pc) ↔ v.extractLsb' 8 2 ≠ 0#2 := by
  have hsecond : u.acceptsWrite (secondReg 15#4) w = true := u.acceptsWrite_of_ne (by decide) w
  rw [Ne, ← State.acceptsWrite_r15_iff hvol, writePairAndAdvance, hsecond]
  split <;> simp_all [raise]

/-- A pair with R14 first has R15 second. -/
theorem writePairAndAdvance_refusesSecond_iff {s u : State} (hvol : u.platform.r15Undoc = .volatile) (hpc : u.pc = s.pc)
    (v w : Word) :
    writePairAndAdvance false 14#4 v w u = .fault (.undescribedShadowWrite s.pc) ↔ w.extractLsb' 8 2 ≠ 0#2 := by
  have hfirst : u.acceptsWrite 14#4 v = true := u.acceptsWrite_of_ne (by decide) v
  have hsecond : secondReg 14#4 = 15#4 := rfl
  rw [Ne, ← State.acceptsWrite_r15_iff hvol, writePairAndAdvance, hfirst, hsecond]
  split <;> simp_all [raise]

theorem sext8_extractLsb'_eight (imm8 : BitVec 8) :
    (sext8 imm8).extractLsb' 8 2 ≠ 0#2 ↔ imm8.getLsbD 7 = true := by
  revert imm8; decide

theorem withHighByte_extractLsb'_eight (old : Word) (imm8 : BitVec 8) :
    (withHighByte old imm8).extractLsb' 8 2 = imm8.extractLsb' 0 2 :=
  BitVec.extractLsb'_append_eq_of_le (by decide)

/-- Settles O55: what a completed write of R15 leaves is what a write of it is accepted for. -/
theorem refusedWritesFault : Obligations.RefusedWritesFault := by
  refine ⟨?accepts, fun s hvol =>
    ⟨State.acceptsWrite_r15_iff hvol, fun imm8 => ⟨?msi, ?mhi⟩, fun i t h hdest hcmp => ?whole⟩⟩
  case accepts =>
    rintro s i v (hne | hstorage)
    · exact s.acceptsWrite_of_ne hne v
    · exact State.acceptsWrite_of_storage hstorage i v
  case msi => exact (writeAndJump_refuses_iff hvol rfl _ _).trans (sext8_extractLsb'_eight imm8)
  case mhi =>
    rw [← withHighByte_extractLsb'_eight (s.operandA 15#4)]
    exact writeAndJump_refuses_iff (u := s.afterReading [15#4]) (by simpa) (by simp) _ _
  case whole => exact (exec_next h).written hvol hdest hcmp

theorem exec_ldr_eq {rs1 : RegIdx} {s : State} (hmap : mapAdmits s.platform.memMap .load (s.operandA rs1) = true)
    (rd : RegIdx) :
    exec (.ldr rd rs1) s = writeAndAdvance rd (Memory.readWord s.mem (s.operandA rs1)) (s.afterReading [rs1]) := by
  simp [exec, execLdr, memRead, hmap]

/-- Settles O56: every one of these instructions ends in a write of R15, alone or in a pair with R0 or R14. -/
theorem eachInstructionRefusesByItsResult : Obligations.EachInstructionRefusesByItsResult := by
  intro s rs1 rs2 imm4 imm5 imm6 imm8 c hvol a b d amount n refuses
  have hone (is : List RegIdx) (v p : Word) :
      writeAndJump 15#4 v p (s.afterReading is) = .fault (.undescribedShadowWrite s.pc) ↔ v.extractLsb' 8 2 ≠ 0#2 :=
    writeAndJump_refuses_iff (by simpa) (by simp) v p
  have hfirst (m : Nat) (firstOnly : Bool) (v w : Word) :
      writePairAndAdvance firstOnly 15#4 v w (s.withDraws m) = .fault (.undescribedShadowWrite s.pc) ↔
        v.extractLsb' 8 2 ≠ 0#2 :=
    writePairAndAdvance_refusesFirst_iff (by simpa) (by simp) firstOnly v w
  have hsecond (m : Nat) (v w : Word) :
      writePairAndAdvance false 14#4 v w (s.withDraws m) = .fault (.undescribedShadowWrite s.pc) ↔
        w.extractLsb' 8 2 ≠ 0#2 :=
    writePairAndAdvance_refusesSecond_iff (by simpa) (by simp) v w
  have hread : s.afterReading [rs1, rs2] = s.withDraws n := State.afterReading_eq_withDraws ..
  refine ⟨hone [rs1] _ _, hone [] _ _, hone [rs1, rs2] _ _, hone [15#4] _ _, hone [rs1] _ _, hone [] _ _,
    hone [15#4] _ _, hone [rs1, rs2] _ _, hone [rs1, rs2] _ _, hone [rs1, rs2] _ _, hone [rs1, rs2] _ _,
    hone [15#4] _ _, hone [15#4] _ _, hone [rs1] _ _, hone [rs1] _ _, ?mul15, ?mul14, ?muls15, ?muls14, ?mull,
    hone [15#4] _ _, hone [rs1] _ _, hone [15#4] _ _, ?ldrIo, fun hmap => ?ldr, fun hb => ?div, fun hb hany => ?zero⟩
  case mul15 | muls15 | mull =>
    simp only [refuses, exec, execMul, execMuls, execMull, multiply, hread]
    exact hfirst ..
  case mul14 | muls14 =>
    simp only [refuses, exec, execMul, execMuls, multiply, hread]
    exact hsecond ..
  case ldrIo =>
    exact writeAndJump_refuses_iff (u := ioRead (s.afterReading [rs1]) (s.operandA rs1)) (by simpa) (by simp) _ _
  case ldr =>
    simp only [refuses, exec_ldr_eq hmap]
    exact hone [rs1] _ _
  case div =>
    simp only [refuses, exec, execDiv, execDivs, execDivq, divide_of_ne_zero hb, hread]
    exact ⟨hfirst .., hsecond .., hfirst .., hsecond .., hfirst ..⟩
  case zero =>
    simp only [refuses, exec, execDiv, execDivs, execDivq, divide_of_zero_anyValue hb hany]
    exact ⟨hfirst .., hsecond .., hfirst .., hsecond .., hfirst ..⟩

end Sys2Proof.Machine
end

section
/-! The statements about one step or a few: the stored word that runs, the end of a run, the boot instruction, IO reads
and loads in a row (20_memory.md, 70_reset_and_hazards.md). -/

namespace Sys2Proof.Machine

/-- An encoded instruction may be decoded under both settings of IGNORED_BITS. -/
theorem acceptsWord_encode (s : State) (i : Instr) : acceptsWord s (encode i) = true := by
  simp [acceptsWord, encode_and_fieldlessBits]

/-- A step on the word of an instruction is the meaning of that instruction. -/
theorem step_of_encoded {s : State} {i : Instr} (hmap : mapAdmits s.platform.memMap .fetch s.pc = true)
    (hword : Memory.readWord s.mem s.pc = encode i) (hsel : i.selectedBy s.r15 = true) : step s = exec i s := by
  rw [step_of_accepted hmap (by rw [hword, acceptsWord_encode]), hword, decode_encode hsel]

/-- Settles O8: the store changes neither R15 nor the platform, and the next fetch reads the stored word. -/
theorem storedWordIsTheNextInstruction : Obligations.StoredWordIsTheNextInstruction := by
  intro rd rs1 s haddr hstore hfetch hacc
  rw [← haddr] at hstore
  refine ⟨_, exec_str_of_admits hstore, ?_⟩
  set t : State := (State.afterReading _ [rd, rs1]).advance with ht
  have hpc : t.pc = s.operandA rd := by simp [ht, haddr]
  have hplatform : t.platform = s.platform := by simp [ht]
  have hr15 : t.r15 = s.r15 := by simp [ht, State.r15]
  have hword : Memory.readWord t.mem t.pc = s.operandB rs1 := by
    rw [hpc]
    simp [ht, Memory.readWord_writeWord]
  rw [step_of_accepted (by rwa [hplatform, hpc, haddr]) (by rwa [hword, acceptsWord, hplatform]), hword, hr15]

/-- `JMI r0 0` writes nothing and jumps to itself. -/
theorem step_of_runEnded {s : State} (h : s.runEnded) : step s = .next s := by
  obtain ⟨hmap, hword⟩ := h
  rw [step_of_encoded (i := .jmi 0#4 0#6) hmap hword rfl, exec_jmi_of_accepts _ (s.acceptsWrite_of_ne (by decide) _),
    State.writeReg_zero, show sext6 0#6 = 0#16 from rfl, BitVec.add_zero]
  rfl

/-- Settles O10: a run is first at its end after one number of steps. -/
theorem endOfRunStays : Obligations.EndOfRunStays := by
  refine ⟨fun s => step_of_runEnded, fun s f hfault hended => ?fault, ?unique⟩
  case fault => simp [step_of_runEnded hended] at hfault
  case unique =>
    rintro s t u ⟨m, hm, ht, hfirstm⟩ ⟨n, hn, hu, hfirstn⟩
    rcases Nat.lt_trichotomy m n with hlt | rfl | hlt
    · exact absurd ht (hfirstn m hlt t hm)
    · exact Option.some.inj (hm.symm.trans hn)
    · exact absurd hu (hfirstm n hlt u hn)

/-- G and E are described bits of R15, so an operand shows them on every platform. -/
theorem State.operandA_r15_flags (s : State) : s.operandA 15#4 &&& 0x0030#16 = s.r15 &&& 0x0030#16 := by
  unfold State.operandA
  cases hpol : s.platform.r15Undoc
  case storage => rw [State.operand_of_storage hpol]; rfl
  case volatile =>
    apply BitVec.eq_of_getLsbD_eq; intro b hb
    simp only [BitVec.getLsbD_and, State.operand_r15_getLsbD hpol]
    interval_cases b <;> simp

theorem withHighByte_zero (old : Word) : withHighByte old 0#8 = old &&& 0x00FF#16 := by
  apply BitVec.eq_of_getLsbD_eq; intro b hb
  simp only [withHighByte, BitVec.getLsbD_append, BitVec.getLsbD_extractLsb', BitVec.getLsbD_and]
  interval_cases b <;> simp

/-- Settles O11: the result is the low byte of the operand, of which G and E are those of R15. -/
theorem bootInstructionClearsTheShadows : Obligations.BootInstructionClearsTheShadows := by
  intro s hword hmap
  have hv := withHighByte_zero (s.operandA 15#4)
  have hacc : s.acceptsWrite 15#4 (s.operandA 15#4 &&& 0x00FF#16) = true := by
    have hclear : (s.operandA 15#4 &&& 0x00FF#16).extractLsb' 8 2 = 0#2 := by simp [BitVec.extractLsb'_and]
    simp [State.acceptsWrite, hclear]
  obtain ⟨t, hexec, hpc, hrest, hregs⟩ := unary_completes (fun a => withHighByte a 0#8) hv hacc
  have hr15 : t.r15 = s.operandA 15#4 &&& 0x00FF#16 := (hregs 15#4).trans (by simp)
  rw [step_of_encoded (i := .mhi 15#4 0#8) hmap hword rfl]
  refine ⟨t, hexec, ?_, fun hstorage => ?_, fun r hr => ?_, hpc, hrest, fun w => ?_⟩
  · calc t.r15 &&& 0xFF30#16 = s.operandA 15#4 &&& 0x0030#16 := by rw [hr15, BitVec.and_assoc]; rfl
      _ = s.r15 &&& 0x0030#16 := s.operandA_r15_flags
  · rw [hr15, State.operandA, State.operand_of_storage hstorage]; rfl
  · simpa [hr] using hregs r
  · apply decode_of_shadowBits_eq
    rw [hr15, BitVec.extractLsb'_and]
    simp

/-- What an IO read that completes draws and records. -/
theorem ioRead_fields {rd rs1 : RegIdx} {s t : State} (h : exec (.ldrIo rd rs1) s = .next t) :
    t.draws = (s.afterReading [rs1]).draws + 1 ∧
    t.ioHistory = s.ioHistory ++ [.read (s.operandA rs1) (Config.draw (s.afterReading [rs1]).draws)] ∧
    t.platform = s.platform := by
  obtain ⟨-, rfl⟩ := writeAndJump_next h
  simp [ioAnswer]

/-- What an IO write draws and records. -/
theorem ioWrite_fields {rd rs1 : RegIdx} {s t : State} (h : exec (.strIo rd rs1) s = .next t) :
    t.draws = (s.afterReading [rd, rs1]).draws ∧
    t.ioHistory = s.ioHistory ++ [.write (s.operandA rd) (s.operandB rs1)] ∧ t.platform = s.platform := by
  cases h
  simp

theorem le_afterReading_draws (s : State) (is : List RegIdx) : s.draws ≤ (s.afterReading is).draws := by
  unfold State.afterReading
  split
  · exact Nat.le_succ _
  · exact Nat.le_refl _

/-- Settles O14: each read is answered by the count of free values, which it then advances. -/
theorem ioReadsAreSeparateDraws : Obligations.IoReadsAreSeparateDraws := by
  intro rd rd' rs1 rs1' rw' rv s t u v ht hu hv
  obtain ⟨htdraws, htio, htplatform⟩ := ioRead_fields ht
  obtain ⟨hudraws, huio, huplatform⟩ := ioWrite_fields hu
  obtain ⟨hvdraws, hvio, -⟩ := ioRead_fields hv
  have hs := le_afterReading_draws s [rs1]
  have ht := le_afterReading_draws t [rw', rv]
  have hu := le_afterReading_draws u [rs1']
  refine ⟨(s.afterReading [rs1]).draws, (u.afterReading [rs1']).draws, hs, by omega, by omega, fun hstorage => ?_, ?_⟩
  · have htstorage : t.platform.r15Undoc = .storage := htplatform ▸ hstorage
    have hustorage : u.platform.r15Undoc = .storage := huplatform ▸ htstorage
    rw [State.afterReading_of_storage hstorage] at htdraws ⊢
    rw [State.afterReading_of_storage htstorage] at hudraws
    exact ⟨rfl, by rw [State.afterReading_of_storage hustorage, hudraws, htdraws]⟩
  · rw [hvio, huio, htio]
    simp

/-- Settles O16: a list of regions admits what one of them permits. -/
theorem unadmittedTransfersFault : Obligations.UnadmittedTransfersFault := by
  refine ⟨fun rd rs1 s => ⟨fun hmap => ?load, fun hmap => ?store⟩, fun map a => ⟨?_, ?_, ?_⟩⟩
  case load => simp [exec, execLdr, memRead, hmap, raise]
  case store => simp [exec, execStr, memWrite, hmap, raise]
  all_goals simp [mapAdmits, regionPermits, and_assoc]

/-- Settles O18: a read after a write of the same word of memory. -/
theorem loadGetsTheLatestStore : Obligations.LoadGetsTheLatestStore := by
  intro ra rs s hstore
  refine ⟨_, exec_str_of_admits hstore, fun rd rb haddr hload hacc => ?_⟩
  set t : State := (State.afterReading _ [ra, rs]).advance with ht
  have hplatform : t.platform = s.platform := by simp [ht]
  have hword : Memory.readWord t.mem (t.operandA rb) = s.operandB rs := by
    rw [haddr]
    simp [ht, Memory.readWord_writeWord]
  have hload' : mapAdmits t.platform.memMap .load (t.operandA rb) = true := by rwa [hplatform, haddr]
  refine ⟨_, exec_ldr_of_admits hload' ?_, ?_⟩
  · rwa [hword, State.acceptsWrite, hplatform]
  · rw [hword]
    exact (write_frame t [rb] rd _ _).1

end Sys2Proof.Machine
end

section
/-! The statements about load, launch and reset (70_reset_and_hazards.md R210, R215, R221), by induction on the
image. -/

namespace Sys2Proof.Machine

/-- The first pair of an image is stored, then the rest. -/
theorem State.load_cons (s : State) (p : Word × Word) (image : Image) :
    s.load (p :: image) = State.load { s with mem := Memory.writeWord s.mem p.1 p.2 } image := rfl

theorem State.load_wf {s : State} (image : Image) (hwf : Memory.wf s.mem = true) :
    Memory.wf (s.load image).mem = true := by
  induction image generalizing s with
  | nil => exact hwf
  | cons p image ih => exact ih (s := { s with mem := _ }) (Memory.writeWord_wf _ _ _ hwf)

theorem State.load_byteAt_of_ne (s : State) {image : Image} {k : Nat}
    (hk : ∀ p ∈ image, k ≠ lowPlace p.1 ∧ k ≠ highPlace p.1) :
    Memory.byteAt (s.load image).mem k = Memory.byteAt s.mem k := by
  induction image generalizing s with
  | nil => rfl
  | cons p image ih =>
    obtain ⟨⟨hlow, hhigh⟩, hrest⟩ := List.forall_mem_cons.1 hk
    rw [State.load_cons, ih _ hrest, Memory.byteAt_writeWord_of_ne _ _ _ hlow hhigh]

theorem State.load_readWord_of_ne (s : State) {image : Image} {a : Word} (ha : ∀ p ∈ image, a ≠ p.1) :
    Memory.readWord (s.load image).mem a = Memory.readWord s.mem a := by
  induction image generalizing s with
  | nil => rfl
  | cons p image ih =>
    obtain ⟨hne, hrest⟩ := List.forall_mem_cons.1 ha
    rw [State.load_cons, ih _ hrest, Memory.readWord_writeWord, if_neg hne]

/-- Each address of an image of distinct addresses holds its word. -/
theorem State.load_readWord (s : State) {image : Image} (hdistinct : image.Pairwise (fun p q => p.1 ≠ q.1)) :
    ∀ p ∈ image, Memory.readWord (s.load image).mem p.1 = p.2 := by
  induction hdistinct generalizing s with
  | nil => simp
  | cons hne _ ih =>
    rw [State.load_cons, List.forall_mem_cons]
    refine ⟨?_, ih _⟩
    rw [State.load_readWord_of_ne _ hne, Memory.readWord_writeWord, if_pos rfl]

/-- A register other than R0 reads its entry of the list of registers. -/
theorem State.readReg_of_ne_zero (s : State) {r : RegIdx} (h : 1 ≤ r.toNat) :
    s.readReg r = s.regs[r.toNat - 1]'(regIdx_pred_lt r) := by
  have hne : r ≠ 0#4 := by rintro rfl; simp at h
  simp [State.readReg, hne, Vector.getD, regIdx_pred_lt r]

/-- Settles O52: the host's load changes memory only, and R15 is the last of the registers. -/
theorem launchStateHoldsItsParameters : Obligations.LaunchStateHoldsItsParameters := by
  intro p resetPc resetR15 resetRegs image s
  refine ⟨rfl, ?r15, rfl, rfl, rfl, State.load_wf image rfl, fun r h => ?regs⟩
  case r15 =>
    rw [State.r15, State.readReg_of_ne_zero s (by decide)]
    exact Vector.getElem_push_eq ..
  case regs =>
    rw [State.readReg_of_ne_zero s h.1]
    exact Vector.getElem_push_lt _

/-- Settles O58: the load puts every word of program and data in place, and the other premises are the parameters. -/
theorem launchMeetsItsPremises : Obligations.LaunchMeetsItsPremises := by
  refine ⟨fun s image hdistinct =>
      ⟨s.load_readWord hdistinct, fun k => s.load_byteAt_of_ne, fun r => rfl, rfl, rfl, rfl, rfl⟩,
    fun p resetPc resetR15 resetRegs program data loads stores hdistinct hfetch hload hstore => ?_⟩
  refine ⟨rfl, rfl, fun w hw => ⟨?_, hfetch w hw⟩, ⟨hload, hstore⟩, rfl⟩
  exact State.load_readWord _ hdistinct w (List.mem_append_left data hw)

/-- Settles O53: the fields of the reset state, whose one region holds every address. -/
theorem resetState : Obligations.ResetState := by
  refine ⟨by decide, rfl, rfl, rfl, rfl, rfl, rfl, rfl, fun k a => ?_, rfl⟩
  have hlast : a.toNat ≤ 65535 := Nat.le_of_lt_succ a.isLt
  cases k <;> simpa [State.reset, defaultPlatform, mapAdmits, allRam, regionPermits]

end Sys2Proof.Machine
end

section
/-! The words of the branches and compares (30_encoding.md R81): opcode 1111, told apart by IR[11:9] and R15[10]. -/

namespace Sys2Proof

theorem decode_of_branchRow {w : Word} (r15 : Word) (relative : Bool)
    (h : w &&& 0xFE00#16 = encXR 0b1111#4 0b01#2 relative 0#4 0#4) :
    decode r15 w = if relative then .brr (irF5 w) (irRd w) else .brc (irF5 w) (irRd w) := by
  obtain ⟨hop, hext, hopt⟩ := fields_of_xrRow h
  rw [decode_of_irOpcode_fifteen r15 hop]
  simp [decodeExtended, hext, hopt]

theorem decode_of_compareRegisterRow {w : Word} (r15 : Word) (h : w &&& 0xFE00#16 = 0xF000#16) :
    decode r15 w = if shCmps r15 then .cmrs (irRs1 w) (irRd w) else .cmr (irRs1 w) (irRd w) := by
  obtain ⟨hop, hext, hopt⟩ := fields_of_xrRow (op := 0b1111#4) (ext := 0b00#2) (opt := false) h
  rw [decode_of_irOpcode_fifteen r15 hop]
  simp [decodeExtended, hext, hopt]

theorem decode_of_compareImmediateRow {w : Word} (r15 : Word) (h : w &&& 0xFE00#16 = 0xF200#16) :
    decode r15 w = if shCmps r15 then .cmis (irF5 w) (irRd w) else .cmi (irF5 w) (irRd w) := by
  obtain ⟨hop, hext, hopt⟩ := fields_of_xrRow (op := 0b1111#4) (ext := 0b00#2) (opt := true) h
  rw [decode_of_irOpcode_fifteen r15 hop]
  simp [decodeExtended, hext, hopt]

end Sys2Proof
end

section
/-! What branches and compares answer, the conditions in G and E, and the comparands in integers (41_control_flow.md
R112, R113). -/

namespace Sys2Proof.Machine

/-- The model's condition table is that of R112. -/
theorem condition_eq_true_iff (fib : BitVec 5) (g e : Bool) :
    condition (condCode fib) g e = some true ↔ conditionHolds (fib.toNat % 8) g e := by
  unfold conditionHolds
  revert fib g e
  decide

theorem branch_completes {fib : BitVec 5} (hlt : fib.toNat % 8 < 6) (target : Word) (rd : RegIdx) (s : State) :
    ∃ t, branch fib target (s.afterReading [rd]) = .next t ∧ KeepsRegs s t ∧ KeepsRest [rd] s t ∧
      (conditionHolds (fib.toNat % 8) (s.r15.getLsbD 5) (s.r15.getLsbD 4) → t.pc = target) ∧
      (¬ conditionHolds (fib.toNat % 8) (s.r15.getLsbD 5) (s.r15.getLsbD 4) → t.pc = s.pc + 1#16) := by
  have hflags : condition (condCode fib) (s.afterReading [rd]).flagG (s.afterReading [rd]).flagE =
      condition (condCode fib) (s.r15.getLsbD 5) (s.r15.getLsbD 4) := by
    simp [State.flagG, State.flagE]
  rw [← condition_eq_true_iff, branch, hflags]
  match hc : condition (condCode fib) (s.r15.getLsbD 5) (s.r15.getLsbD 4) with
  | none => exact absurd hlt ((condition_eq_none_iff ..).1 hc)
  | some true =>
    obtain ⟨hregs, hrest⟩ := jumpTo_frame s [rd] target
    exact ⟨_, rfl, hregs, hrest, fun _ => rfl, fun h => absurd rfl h⟩
  | some false =>
    obtain ⟨hregs, hrest⟩ := advance_frame s [rd]
    exact ⟨_, rfl, hregs, hrest, nofun, fun _ => by simp⟩

theorem branch_of_reserved {fib : BitVec 5} (hge : 6 ≤ fib.toNat % 8) (target : Word) (rd : RegIdx) (s : State) :
    branch fib target (s.afterReading [rd]) = .fault (.reservedCondition s.pc) := by
  have hnone := (condition_eq_none_iff fib (s.afterReading [rd]).flagG (s.afterReading [rd]).flagE).2 (by omega)
  simp [branch, hnone, raise]

/-- A branch looks at FIB[2:0] only. -/
theorem branch_congr {fib fib' : BitVec 5} (h : fib.toNat % 8 = fib'.toNat % 8) : branch fib = branch fib' := by
  have hcode : condCode fib = condCode fib' := BitVec.eq_of_toNat_eq (by simpa [condCode] using h)
  funext target s
  rw [branch, branch, hcode]

theorem reading_inj (signed : Bool) {a b : Word} : reading signed a = reading signed b ↔ a = b := by
  cases signed
  · exact Int.ofNat_inj.trans BitVec.toNat_inj
  · exact BitVec.toInt_inj

theorem greater_eq_reading (signed : Bool) (a b : Word) :
    greater signed a b = decide (reading signed a > reading signed b) := by
  cases signed <;> simp [greater, reading]

theorem compare_completes (signed : Bool) (a b : Word) (is : List RegIdx) (s : State) :
    ∃ t, compare signed a b (s.afterReading is) = .next t ∧ t.pc = s.pc + 1#16 ∧ KeepsRest is s t ∧
      WritesFlags (decide (reading signed a > reading signed b)) (decide (reading signed a = reading signed b))
        s t := by
  have hflags := compare_frame (s.afterReading is) (greater signed a b) (decide (a = b))
  simp only [greater_eq_reading, ← reading_inj signed (a := a)] at hflags
  refine ⟨_, rfl, by simp, ⟨fun k => ?_, ?_, ?_, ?_⟩, ?_⟩
  case refine_5 => simpa [WritesFlags, greater_eq_reading, reading_inj] using hflags
  all_goals simp

/-- The relation a condition names is its entry of the table of R112, for the flags a compare leaves. -/
theorem relationNamed_iff (code : Nat) (a b : Int) :
    relationNamed code a b ↔ conditionHolds code (decide (a > b)) (decide (a = b)) := by
  unfold relationNamed conditionHolds
  simp only [decide_eq_true_eq, decide_eq_false_iff_not]
  omega

/-- CMI reads the extended immediate as an unsigned number (R116). -/
theorem reading_unsigned_sext5 (imm5 : BitVec 5) : reading false (sext5 imm5) = imm5.toInt % 65536 := by
  revert imm5; decide

theorem reading_signed_sext5 (imm5 : BitVec 5) : reading true (sext5 imm5) = imm5.toInt :=
  BitVec.toInt_signExtend_of_le (by decide)

end Sys2Proof.Machine
end

section
/-! The statements about branches and compares (41_control_flow.md). -/

namespace Sys2Proof.Machine

/-- Settles O21: a branch to the operand itself. -/
theorem brcBranchesAbsolute : Obligations.BrcBranchesAbsolute :=
  ⟨fun r15 _ _ h => decode_of_branchRow r15 false h, fun _ rd s hlt => branch_completes hlt (s.operandA rd) rd s⟩

/-- Settles O22: a branch to pc plus the operand. -/
theorem brrBranchesRelative : Obligations.BrrBranchesRelative :=
  ⟨fun r15 _ _ h => decode_of_branchRow r15 true h, fun _ rd s hlt => by
    rw [← BitVec.add_def]
    exact branch_completes hlt (s.pc + s.operandA rd) rd s⟩

/-- Settles O23: the condition code is FIB[2:0], and 6 and 7 have no entry. -/
theorem reservedConditionFaults : Obligations.ReservedConditionFaults := by
  refine ⟨fun fib rd s hge => ⟨branch_of_reserved hge .., branch_of_reserved hge ..⟩, fun fib fib' rd s h => ?_⟩
  simp only [exec, execBrc, execBrr, branch_congr h, and_self]

/-- Settles O24: both compare two operands, and differ in the reading. -/
theorem registerComparesWriteTheFlags : Obligations.RegisterComparesWriteTheFlags :=
  ⟨fun r15 _ hsh h => baseForm_of_clear (decode_of_compareRegisterRow r15 h) hsh,
    fun r15 _ hsh h => shadowForm_of_set (decode_of_compareRegisterRow r15 h) hsh,
    fun rs1 rd s => ⟨compare_completes false _ _ [rs1, rd] s, compare_completes true _ _ [rs1, rd] s⟩⟩

/-- Settles O25: as O24, with the extended immediate as the first comparand. -/
theorem immediateComparesWriteTheFlags : Obligations.ImmediateComparesWriteTheFlags := by
  refine ⟨fun r15 _ hsh h => baseForm_of_clear (decode_of_compareImmediateRow r15 h) hsh,
    fun r15 _ hsh h => shadowForm_of_set (decode_of_compareImmediateRow r15 h) hsh, fun imm5 rd s => ⟨?cmi, ?cmis⟩⟩
  case cmi =>
    rw [← reading_unsigned_sext5]
    exact compare_completes false _ _ [rd] s
  case cmis =>
    rw [← reading_signed_sext5]
    exact compare_completes true _ _ [rd] s

/-- A branch in the state a compare leaves. -/
theorem branch_after_compare {fib : BitVec 5} (hlt : fib.toNat % 8 < 6) (signed relative : Bool) (a b : Word)
    (is : List RegIdx) (rb : RegIdx) (s : State) :
    ∃ t u, compare signed a b (s.afterReading is) = .next t ∧
      exec (if relative then .brr fib rb else .brc fib rb) t = .next u ∧
      (relationNamed (fib.toNat % 8) (reading signed a) (reading signed b) →
        u.pc = if relative then t.pc + t.operandA rb else t.operandA rb) ∧
      (¬ relationNamed (fib.toNat % 8) (reading signed a) (reading signed b) → u.pc = t.pc + 1#16) := by
  obtain ⟨t, hcmp, -, -, -, hbits⟩ := compare_completes signed a b is s
  have hg : t.r15.getLsbD 5 = _ := hbits 5
  have he : t.r15.getLsbD 4 = _ := hbits 4
  simp only [if_true] at hg he
  obtain ⟨u, hexec, -, -, htaken, helse⟩ :=
    branch_completes hlt (if relative then t.pc + t.operandA rb else t.operandA rb) rb t
  refine ⟨t, u, hcmp, ?_, ?_⟩
  · rw [← hexec]
    cases relative <;> rfl
  · rw [relationNamed_iff]
    rw [hg, he] at htaken helse
    exact ⟨htaken, helse⟩

/-- Settles O26: the flags a compare leaves make the condition of the branch the relation it names. -/
theorem branchAfterCompareFollowsTheRelation : Obligations.BranchAfterCompareFollowsTheRelation := by
  intro signed relative first rd rb fib s hlt
  rcases first with rs1 | imm5
  · cases signed <;> exact branch_after_compare hlt _ relative (s.operandA rs1) (s.operandB rd) [rs1, rd] rb s
  · cases signed <;> exact branch_after_compare hlt _ relative (sext5 imm5) (s.operandA rd) [rd] rb s

end Sys2Proof.Machine
end

section
/-! The words of the register shifts, of SHI and of the divides (30_encoding.md R81). -/

namespace Sys2Proof

theorem decode_of_slrRow {w : Word} (r15 : Word) (h : w &&& 0xF000#16 = 0x7000#16) :
    decode r15 w = .slr (irRd w) (irRs1 w) (irRs2 w) := by
  simp [decode, irOpcode_of_opRow (op := 0b0111#4) h]

theorem decode_of_sarRow {w : Word} (r15 : Word) (h : w &&& 0xF000#16 = 0x8000#16) :
    decode r15 w = .sar (irRd w) (irRs1 w) (irRs2 w) := by
  simp [decode, irOpcode_of_opRow (op := 0b1000#4) h]

theorem decode_of_shiRow {w : Word} (r15 : Word) (h : w &&& 0xFC00#16 = 0xF800#16) :
    decode r15 w = .shi (irOpt w) (irRd w) (irF5 w) := by
  obtain ⟨hop, hext⟩ := fields_of_extRow (op := 0b1111#4) (ext := 0b10#2) h
  rw [decode_of_irOpcode_fifteen r15 hop]
  simp [decodeExtended, hext]

/-- R15[11] alone makes a divide a DIVQ; R15[12] is looked at only where it is 0 (R166). -/
theorem decode_of_divideRow {w : Word} (r15 : Word) (h : w &&& 0xF000#16 = 0xE000#16) :
    decode r15 w =
      if shDivq r15 then .divq (irRd w) (irRs1 w) (irRs2 w)
      else if shSigned r15 then .divs (irRd w) (irRs1 w) (irRs2 w)
      else .div (irRd w) (irRs1 w) (irRs2 w) := by
  simp [decode, irOpcode_of_opRow (op := 0b1110#4) h]

/-- The second of three forms, where the first shadow bit is 0 and the second 1. -/
theorem secondForm_of_set {b c : Bool} {i first second base : Instr}
    (h : i = if b then first else if c then second else base) (hbc : (!b && c) = true) : i = second := by
  simp_all

/-- The third of three forms, where both shadow bits are 0. -/
theorem thirdForm_of_clear {b c : Bool} {i first second base : Instr}
    (h : i = if b then first else if c then second else base) (hbc : (!b && !c) = true) : i = base := by
  simp_all

end Sys2Proof
end

section
/-! Shifts, products and quotients in integers, and what an instruction that writes a pair answers
(42_logic_move_shift_add.md R134, R135; 43_mul_div_shi_not.md R160 to R169). -/

namespace Sys2Proof.Machine

theorem shift_left_eq (v : Word) (m : Nat) (arith : Bool) : shift v (.left m) arith = shiftLaw true m arith v := by
  apply BitVec.eq_of_toNat_eq
  simp [shift, shiftLaw, BitVec.toNat_shiftLeft, Nat.shiftLeft_eq]

theorem shift_right_eq (v : Word) (m : Nat) (arith : Bool) : shift v (.right m) arith = shiftLaw false m arith v := by
  cases arith
  case true => simp [shift, shiftLaw, BitVec.sshiftRight, Int.shiftRight_eq_div_pow]
  case false =>
    have hlt : v.toNat / 2 ^ m < 65536 := Nat.lt_of_le_of_lt (Nat.div_le_self ..) v.isLt
    apply BitVec.eq_of_toNat_eq
    simp [shift, shiftLaw, Nat.shiftRight_eq_div_pow, Nat.mod_eq_of_lt hlt]

/-- Bit 4 of a five-bit amount. -/
theorem getLsbD_four_eq (a5 : BitVec 5) : a5.getLsbD 4 = decide (16 ≤ a5.toNat) := by
  revert a5; decide

theorem shift_signMagnitude (v : Word) (a5 : BitVec 5) (arith : Bool) :
    shift v (signMagnitudeAmount a5) arith = shiftLaw (decide (16 ≤ a5.toNat)) (a5.toNat % 16) arith v := by
  have hlow : (a5.extractLsb' 0 4).toNat = a5.toNat % 16 := by simp
  rw [signMagnitudeAmount, getLsbD_four_eq, hlow]
  by_cases h : 16 ≤ a5.toNat <;> simp [h, shift_left_eq, shift_right_eq]

theorem shift_twosComplement (v : Word) (a5 : BitVec 5) (arith : Bool) :
    shift v (twosComplementAmount a5) arith =
      if 16 ≤ a5.toNat then shiftLaw true (32 - a5.toNat) arith v else shiftLaw false a5.toNat arith v := by
  rw [twosComplementAmount, getLsbD_four_eq]
  by_cases h : 16 ≤ a5.toNat <;> simp [h, shift_left_eq, shift_right_eq]

theorem highHalf_product_unsigned (a b : Word) :
    highHalf (product false a b) = BitVec.ofNat 16 (a.toNat * b.toNat / 65536) := by
  apply BitVec.eq_of_toNat_eq
  simp [highHalf, product, Nat.shiftRight_eq_div_pow]
  omega

theorem lowHalf_product_signed (a b : Word) :
    lowHalf (product true a b) = BitVec.ofInt 16 (a.toInt * b.toInt % 4294967296) := by
  apply BitVec.eq_of_toNat_eq
  simp [lowHalf, product, BitVec.toNat_ofInt]
  omega

theorem highHalf_product_signed (a b : Word) :
    highHalf (product true a b) = BitVec.ofInt 16 (a.toInt * b.toInt % 4294967296 / 65536) := by
  apply BitVec.eq_of_toNat_eq
  simp [highHalf, product, BitVec.toNat_ofInt, Nat.shiftRight_eq_div_pow]
  omega

theorem reading_ne_zero (signed : Bool) {b : Word} (hb : b ≠ 0#16) : reading signed b ≠ 0 := by
  have hzero : reading signed 0#16 = 0 := by cases signed <;> rfl
  rw [← hzero, Ne, reading_inj]
  exact hb

/-- Quotients round toward zero under both readings. -/
theorem quotient_eq_ofInt (signed : Bool) (a b : Word) :
    quotient signed a b = BitVec.ofInt 16 ((reading signed a).tdiv (reading signed b)) := by
  cases signed
  · simp only [quotient, reading, Bool.false_eq_true, if_false, ← Int.ofNat_tdiv, BitVec.ofInt_natCast]
  · simp [quotient, reading]

/-- Division that rounds toward zero leaves a remainder with the sign of the dividend (R165, R167). -/
theorem tdiv_law (a : Int) {b : Int} (hb : b ≠ 0) :
    a = a.tdiv b * b + a.tmod b ∧ (a.tmod b).natAbs < b.natAbs ∧ (a.tmod b = 0 ∨ (a.tmod b < 0 ↔ a < 0)) := by
  refine ⟨(Int.tdiv_mul_add_tmod a b).symm, ?_, ?_⟩
  · rw [Int.natAbs_tmod]
    exact Nat.mod_lt _ (Int.natAbs_pos.2 hb)
  · rcases lt_or_ge a 0 with ha | ha
    · have hneg := Int.tmod_nonneg b (a := -a) (by omega)
      rw [Int.neg_tmod] at hneg
      omega
    · have hpos := Int.tmod_nonneg b ha
      omega

theorem writePairAndAdvance_completes {rd : RegIdx} {v w : Word} {s : State} (is : List RegIdx)
    (hv : s.acceptsWrite rd v = true) (hw : s.acceptsWrite (rd + 1#4) w = true) :
    ∃ t, writePairAndAdvance false rd v w (s.afterReading is) = .next t ∧ t.pc = s.pc + 1#16 ∧
      KeepsRest is s t ∧ WritesRegPair rd v w s t := by
  obtain ⟨hregs, hrest⟩ := writePair_frame s is rd v w
  have hnext := writePairAndAdvance_of_accepts (b := false) (s := s.afterReading is) (by simpa using hv)
    (.inr (by simpa [secondReg] using hw))
  exact ⟨_, hnext, by simp, hrest, hregs⟩

/-- Reading R0 draws nothing. -/
theorem State.afterReading_zero_cons (s : State) (is : List RegIdx) :
    s.afterReading (0#4 :: is) = s.afterReading is := by
  simp [State.afterReading]

end Sys2Proof.Machine
end

section
/-! The statements about MSI-SHADOW, shifts, pair products and quotients, and the negation (42_logic_move_shift_add.md,
43_mul_div_shi_not.md). -/

namespace Sys2Proof.Machine

/-- Settles O31: the shadow form of the MSI row, whose meaning is the fault. -/
theorem msiShadowFaults : Obligations.MsiShadowFaults :=
  ⟨fun r15 _ hsh h => shadowForm_of_set (decode_of_msiRow r15 h) hsh, fun _ _ _ => rfl⟩

/-- Settles O33: both formats of the amount give the shift law, and SLR and SAR differ in its sign fill. -/
theorem registerShiftsShift : Obligations.RegisterShiftsShift := by
  refine ⟨fun r15 _ _ h => decode_of_slrRow r15 h, fun r15 _ _ h => decode_of_sarRow r15 h,
    fun arith rd rs1 rs2 s => ?_⟩
  intro amount v hacc
  have hamount : ((s.operandB rs2).extractLsb' 0 5).toNat = amount := by simp [amount]
  have hv : shift (s.operandA rs1) (registerAmount s.platform.regShiftFormat ((s.operandB rs2).extractLsb' 0 5)) arith
      = v := by
    simp only [v, ← hamount]
    cases s.platform.regShiftFormat
    case signMagnitude => exact shift_signMagnitude ..
    case twosComplement => exact shift_twosComplement ..
  cases arith <;> exact binary_completes
    (fun a b => shift a (registerAmount s.platform.regShiftFormat (b.extractLsb' 0 5)) _) hv hacc

/-- Settles O37: a pair write of the halves of the unsigned product. -/
theorem mulWritesBothHalves : Obligations.MulWritesBothHalves := by
  refine ⟨fun r15 _ hsh h => thirdForm_of_clear (decode_of_multiplyRow r15 h) hsh, fun rd rs1 rs2 s => ?_⟩
  rw [← lowHalf_product_unsigned, ← highHalf_product_unsigned]
  exact writePairAndAdvance_completes [rs1, rs2]

/-- Settles O38: a pair write of the halves of the signed product. -/
theorem mulsWritesBothHalves : Obligations.MulsWritesBothHalves := by
  refine ⟨fun r15 _ hsh h => secondForm_of_set (decode_of_multiplyRow r15 h) hsh, fun rd rs1 rs2 s => ?_⟩
  rw [← lowHalf_product_signed, ← highHalf_product_signed]
  exact writePairAndAdvance_completes [rs1, rs2]

/-- Settles O40: the quotient and the remainder of natural numbers. -/
theorem divWritesQuotientAndRemainder : Obligations.DivWritesQuotientAndRemainder := by
  refine ⟨fun r15 _ hsh h => thirdForm_of_clear (decode_of_divideRow r15 h) hsh, fun rd rs1 rs2 s hb => ?_⟩
  have hpos : 0 < (s.operandB rs2).toNat := Nat.pos_of_ne_zero fun h => hb (BitVec.eq_of_toNat_eq h)
  refine ⟨_, _, (Nat.div_add_mod' _ _).symm, Nat.mod_lt _ hpos, fun hq hr => ?_⟩
  rw [exec, execDiv, divide_of_ne_zero hb]
  exact writePairAndAdvance_completes [rs1, rs2] hq hr

/-- Settles O41: division toward zero of the signed readings. -/
theorem divsWritesQuotientAndRemainder : Obligations.DivsWritesQuotientAndRemainder := by
  refine ⟨fun r15 _ hsh h => secondForm_of_set (decode_of_divideRow r15 h) hsh, fun rd rs1 rs2 s hb => ?_⟩
  obtain ⟨hlaw, hlt, hsign⟩ := tdiv_law (s.operandA rs1).toInt (reading_ne_zero true hb)
  refine ⟨_, _, hlaw, hlt, hsign, fun hq hr => ?_⟩
  rw [exec, execDivs, divide_of_ne_zero hb]
  exact writePairAndAdvance_completes [rs1, rs2] hq hr

/-- Settles O42: division toward zero of whichever readings R15[12] selects, the second result suppressed. -/
theorem divqWritesTheQuotient : Obligations.DivqWritesTheQuotient := by
  refine ⟨fun r15 _ hsh h => shadowForm_of_set (decode_of_divideRow r15 h) hsh, fun rd rs1 rs2 s hb => ?_⟩
  intro a b
  obtain ⟨hlaw, hlt, hsign⟩ := tdiv_law a (reading_ne_zero (s.r15.getLsbD 12) hb)
  refine ⟨_, _, hlaw, hlt, hsign, fun hq => ?_⟩
  rw [exec, execDivq, divide_of_ne_zero hb, writePairAndAdvance_firstOnly, quotient_eq_ofInt]
  exact writeAndAdvance_completes [rs1, rs2] hq

/-- Settles O43: the fault, or a write of values drawn after the operands are read. -/
theorem divisionByZero : Obligations.DivisionByZero := by
  intro rd rs1 rs2 s hb n
  refine ⟨fun hfault => ?fault, fun hany hv => ⟨fun hw => ?pair, ?one⟩⟩
  case fault =>
    exact ⟨divide_of_zero_fault hb hfault .., divide_of_zero_fault hb hfault .., divide_of_zero_fault hb hfault ..⟩
  case pair =>
    have hpair (signed : Bool) : divide signed false rd rs1 rs2 s =
        .next ((s.withDraws (n + 2)).writePair false rd (Config.draw n) (Config.draw (n + 1))).advance := by
      rw [divide_of_zero_anyValue hb hany]
      exact writePairAndAdvance_of_accepts hv (.inr hw)
    refine ⟨_, Config.draw n, Config.draw (n + 1), hpair false, hpair true, by simp, fun r => ?_, fun k => ?_,
      ?_, ?_, ?_⟩
    all_goals simp [State.readReg_writePair, secondReg]
  case one =>
    have hone : divide (shSigned s.r15) true rd rs1 rs2 s =
        .next ((s.withDraws (n + 1)).writeReg rd (Config.draw n)).advance := by
      rw [divide_of_zero_anyValue hb hany]
      exact writePairAndAdvance_of_accepts hv (.inl rfl)
    refine ⟨_, Config.draw n, hone, by simp, fun r => ?_, fun k => ?_, ?_, ?_, ?_⟩
    all_goals simp [State.readReg_writeReg]

/-- Settles O44: the immediate is in the sign-and-magnitude format on every platform. -/
theorem shiShiftsByTheImmediate : Obligations.ShiShiftsByTheImmediate :=
  ⟨fun r15 _ _ h => decode_of_shiRow r15 h, fun la _ shim _ hacc =>
    unary_completes (fun a => shift a (signMagnitudeAmount shim) la) (shift_signMagnitude ..) hacc⟩

/-- Settles O46: R0 reads 0 and draws nothing, so NTR and SUR write the same word in the same state. -/
theorem negationIsSubtractionFromZero : Obligations.NegationIsSubtractionFromZero := by
  refine fun c rd rs s => ⟨fun hsame => ?_, rfl⟩
  have hzero : s.operandA 0#4 = 0#16 := s.operand_of_ne 0 (by decide)
  have hneg : complement true (s.operandA rs) = 0#16 - s.operandB rs := by
    simp [complement, ← hsame, BitVec.neg_eq_not_add]
  simp only [exec, execNtr, execSur, unary, binary, hzero, hneg, State.afterReading_zero_cons]

end Sys2Proof.Machine
end
